-- ==== Sys2Proof/Word.lean ====
section
/-! DEFINITION. The block's bit-vector widths (spec/30_encoding.md R60, R61; spec/00_scope.md R6, R9, R10). -/

namespace Sys2Proof

/-- A 32-bit word: every entry, address and bit-field operand (R6). -/
abbrev Word := BitVec 32

/-- A position within a word, the ports `hi` and `lo` (R60). -/
abbrev BitPos := BitVec 5

/-- A flags operand: bit 0 present, bit 1 writable, bit 2 user-accessible (R12). -/
abbrev Flags := BitVec 3

/-- A slot number 0..1023 of a unit, or a table number (R41, R60). -/
abbrev Index := BitVec 10

/-- The upper 20 bits of a page-aligned address (R48). -/
abbrev Page := BitVec 20

end Sys2Proof
end

