-- ==== Sys2Proof/Syntax.lean ====
section
/-! DEFINITION. The command port and the 44 commands (spec/30_encoding.md R60, R64, R66; spec/opcode_table.json). -/

namespace Sys2Proof

/-- The `kind` port: 0 is a PTE, or a page table as unit; 1 is a PDE, or the page directory as unit (R60). -/
inductive Kind where
  | pte
  | pde
  deriving DecidableEq, Repr

/-- The `mode` port: 0 is ZEROED, 1 is LINEAR (R60). -/
inductive InitMode where
  | zeroed
  | linear
  deriving DecidableEq, Repr

/-- One command as presented on the command port: one value on each input port (R60). A port not written is 0 (R69). -/
structure Ports where
  op   : BitVec 8
  kind : BitVec 1 := 0
  tsel : Index := 0
  mode : BitVec 1 := 0
  f    : Flags := 0
  g    : Flags := 0
  hi   : BitPos := 0
  lo   : BitPos := 0
  a    : Word := 0
  b    : Word := 0
  deriving DecidableEq, Repr

/-- One constructor per row of the opcode table; its arguments are the ports the row reads (R64, R66). -/
inductive Instr where
  | bfGetBit (a : Word) (lo : BitPos)
  | bfSetBit (a : Word) (lo : BitPos)
  | bfClrBit (a : Word) (lo : BitPos)
  | bfGetRange (a : Word) (hi lo : BitPos)
  | bfSetRange (a b : Word) (hi lo : BitPos)
  | bfClrRange (a : Word) (hi lo : BitPos)
  | entMake (kind : Kind) (a : Word) (f : Flags)
  | entGetAddress (kind : Kind) (a : Word)
  | entIsPresent (kind : Kind) (a : Word)
  | entIsWriteable (kind : Kind) (a : Word)
  | entCanUserAccess (kind : Kind) (a : Word)
  | entWasAccessed (kind : Kind) (a : Word)
  | entIsDirty (kind : Kind) (a : Word)
  | entMarkPresent (kind : Kind) (a : Word)
  | entMarkNotPresent (kind : Kind) (a : Word)
  | entEnableWriting (kind : Kind) (a : Word)
  | entDisableWriting (kind : Kind) (a : Word)
  | entEnableUserAccess (kind : Kind) (a : Word)
  | entDisableUserAccess (kind : Kind) (a : Word)
  | entResetAccessed (kind : Kind) (a : Word)
  | ctInit (kind : Kind) (tsel : Index) (mode : InitMode) (f : Flags) (b : Word)
  | ctGet (kind : Kind) (tsel : Index) (a : Word)
  | ctPut (kind : Kind) (tsel : Index) (a b : Word) (f : Flags)
  | ctGetAddress (kind : Kind) (tsel : Index) (a : Word)
  | ctIsPresent (kind : Kind) (tsel : Index) (a : Word)
  | ctIsWriteable (kind : Kind) (tsel : Index) (a : Word)
  | ctCanUserAccess (kind : Kind) (tsel : Index) (a : Word)
  | ctWasAccessed (kind : Kind) (tsel : Index) (a : Word)
  | ctIsDirty (kind : Kind) (tsel : Index) (a : Word)
  | ctMarkPresent (kind : Kind) (tsel : Index) (a : Word)
  | ctMarkNotPresent (kind : Kind) (tsel : Index) (a : Word)
  | ctEnableWriting (kind : Kind) (tsel : Index) (a : Word)
  | ctDisableWriting (kind : Kind) (tsel : Index) (a : Word)
  | ctEnableUserAccess (kind : Kind) (tsel : Index) (a : Word)
  | ctDisableUserAccess (kind : Kind) (tsel : Index) (a : Word)
  | ctResetAccessed (kind : Kind) (tsel : Index) (a : Word)
  | pgSplit (a : Word)
  | pgLookup (a : Word)
  | pgMake (f g : Flags) (mode : InitMode)
  | pgMap (a b : Word) (f : Flags)
  | pgLoad
  | pgEnable
  | pgDisable
  | pgDestroy
  deriving DecidableEq, Repr

end Sys2Proof
end

