-- ==== Sys2Proof/WellFormed.lean ====
section
/-! DEFINITION. Which commands are legal encodings: every one but the two the spec calls illegal although their opcode is
assigned, the dirty accessors with `kind = 1` (spec/30_encoding.md R67). Field widths are in the types of the fields. -/

namespace Sys2Proof

/-- The dirty accessors exist for a PTE only: "bit 6 dirty (PTE only)" (R67, R97, R119). -/
def Kind.hasDirty : Kind → Bool
  | .pte => true
  | .pde => false

/-- R67: the commands that are legal encodings. An ill-formed one still decodes and runs: its meaning answers ILLEGAL_OP. -/
def Instr.wellFormed : Instr → Bool
  | .entIsDirty kind _ => kind.hasDirty
  | .ctIsDirty kind _ _ => kind.hasDirty
  | .bfGetBit _ _ | .bfSetBit _ _ | .bfClrBit _ _ | .bfGetRange _ _ _ | .bfSetRange _ _ _ _ | .bfClrRange _ _ _
  | .entMake _ _ _ | .entGetAddress _ _ | .entIsPresent _ _ | .entIsWriteable _ _ | .entCanUserAccess _ _
  | .entWasAccessed _ _ | .entMarkPresent _ _ | .entMarkNotPresent _ _ | .entEnableWriting _ _
  | .entDisableWriting _ _ | .entEnableUserAccess _ _ | .entDisableUserAccess _ _ | .entResetAccessed _ _
  | .ctInit _ _ _ _ _ | .ctGet _ _ _ | .ctPut _ _ _ _ _ | .ctGetAddress _ _ _ | .ctIsPresent _ _ _
  | .ctIsWriteable _ _ _ | .ctCanUserAccess _ _ _ | .ctWasAccessed _ _ _ | .ctMarkPresent _ _ _
  | .ctMarkNotPresent _ _ _ | .ctEnableWriting _ _ _ | .ctDisableWriting _ _ _ | .ctEnableUserAccess _ _ _
  | .ctDisableUserAccess _ _ _ | .ctResetAccessed _ _ _
  | .pgSplit _ | .pgLookup _ | .pgMake _ _ _ | .pgMap _ _ _ | .pgLoad | .pgEnable | .pgDisable | .pgDestroy => true

end Sys2Proof
end

