-- ==== Sys2Proof/Decode.lean ====
section
/-! DEFINITION. Decoding a command from the values of the command port, and encoding one (spec/30_encoding.md R60, R66 to R69). -/

namespace Sys2Proof

/-- Why a command is no instruction: an opcode the table of R66 does not assign (R67). -/
inductive DecodeError where
  /-- `op` is not in the table of R66; the block answers ILLEGAL_OP (R154). -/
  | unassigned (op : BitVec 8)
  deriving DecidableEq, Repr

/-- The `kind` port read as a kind (R60). -/
def kindOf (k : BitVec 1) : Kind := if k = 1#1 then .pde else .pte

/-- The `mode` port read as an initialization mode (R60). -/
def modeOf (m : BitVec 1) : InitMode := if m = 1#1 then .linear else .zeroed

/-- The `kind` port's value for a kind (R60). -/
def Kind.bit : Kind → BitVec 1
  | .pte => 0
  | .pde => 1

/-- The `mode` port's value for a mode (R60). -/
def InitMode.bit : InitMode → BitVec 1
  | .zeroed => 0
  | .linear => 1

/-- The command on the command port: all 8 bits of `op` select the operation (R66), the ports its row does not read are
ignored (R60), any other opcode is illegal (R67). -/
def decode (p : Ports) : Except DecodeError Instr :=
  match p.op with
  | 0x01#8 => .ok (.bfGetBit p.a p.lo)
  | 0x02#8 => .ok (.bfSetBit p.a p.lo)
  | 0x03#8 => .ok (.bfClrBit p.a p.lo)
  | 0x04#8 => .ok (.bfGetRange p.a p.hi p.lo)
  | 0x05#8 => .ok (.bfSetRange p.a p.b p.hi p.lo)
  | 0x06#8 => .ok (.bfClrRange p.a p.hi p.lo)
  | 0x10#8 => .ok (.entMake (kindOf p.kind) p.a p.f)
  | 0x11#8 => .ok (.entGetAddress (kindOf p.kind) p.a)
  | 0x12#8 => .ok (.entIsPresent (kindOf p.kind) p.a)
  | 0x13#8 => .ok (.entIsWriteable (kindOf p.kind) p.a)
  | 0x14#8 => .ok (.entCanUserAccess (kindOf p.kind) p.a)
  | 0x15#8 => .ok (.entWasAccessed (kindOf p.kind) p.a)
  | 0x16#8 => .ok (.entIsDirty (kindOf p.kind) p.a)
  | 0x18#8 => .ok (.entMarkPresent (kindOf p.kind) p.a)
  | 0x19#8 => .ok (.entMarkNotPresent (kindOf p.kind) p.a)
  | 0x1A#8 => .ok (.entEnableWriting (kindOf p.kind) p.a)
  | 0x1B#8 => .ok (.entDisableWriting (kindOf p.kind) p.a)
  | 0x1C#8 => .ok (.entEnableUserAccess (kindOf p.kind) p.a)
  | 0x1D#8 => .ok (.entDisableUserAccess (kindOf p.kind) p.a)
  | 0x1E#8 => .ok (.entResetAccessed (kindOf p.kind) p.a)
  | 0x20#8 => .ok (.ctInit (kindOf p.kind) p.tsel (modeOf p.mode) p.f p.b)
  | 0x21#8 => .ok (.ctGet (kindOf p.kind) p.tsel p.a)
  | 0x22#8 => .ok (.ctPut (kindOf p.kind) p.tsel p.a p.b p.f)
  | 0x31#8 => .ok (.ctGetAddress (kindOf p.kind) p.tsel p.a)
  | 0x32#8 => .ok (.ctIsPresent (kindOf p.kind) p.tsel p.a)
  | 0x33#8 => .ok (.ctIsWriteable (kindOf p.kind) p.tsel p.a)
  | 0x34#8 => .ok (.ctCanUserAccess (kindOf p.kind) p.tsel p.a)
  | 0x35#8 => .ok (.ctWasAccessed (kindOf p.kind) p.tsel p.a)
  | 0x36#8 => .ok (.ctIsDirty (kindOf p.kind) p.tsel p.a)
  | 0x38#8 => .ok (.ctMarkPresent (kindOf p.kind) p.tsel p.a)
  | 0x39#8 => .ok (.ctMarkNotPresent (kindOf p.kind) p.tsel p.a)
  | 0x3A#8 => .ok (.ctEnableWriting (kindOf p.kind) p.tsel p.a)
  | 0x3B#8 => .ok (.ctDisableWriting (kindOf p.kind) p.tsel p.a)
  | 0x3C#8 => .ok (.ctEnableUserAccess (kindOf p.kind) p.tsel p.a)
  | 0x3D#8 => .ok (.ctDisableUserAccess (kindOf p.kind) p.tsel p.a)
  | 0x3E#8 => .ok (.ctResetAccessed (kindOf p.kind) p.tsel p.a)
  | 0x40#8 => .ok (.pgSplit p.a)
  | 0x41#8 => .ok (.pgLookup p.a)
  | 0x42#8 => .ok (.pgMake p.f p.g (modeOf p.mode))
  | 0x43#8 => .ok (.pgMap p.a p.b p.f)
  | 0x44#8 => .ok .pgLoad
  | 0x45#8 => .ok .pgEnable
  | 0x46#8 => .ok .pgDisable
  | 0x47#8 => .ok .pgDestroy
  | op => .error (.unassigned op)

/-- The command port's values for an instruction; a port its row does not read is 0 (R69). -/
def encode : Instr → Ports
  | .bfGetBit a lo => { op := 0x01, a := a, lo := lo }
  | .bfSetBit a lo => { op := 0x02, a := a, lo := lo }
  | .bfClrBit a lo => { op := 0x03, a := a, lo := lo }
  | .bfGetRange a hi lo => { op := 0x04, a := a, hi := hi, lo := lo }
  | .bfSetRange a b hi lo => { op := 0x05, a := a, b := b, hi := hi, lo := lo }
  | .bfClrRange a hi lo => { op := 0x06, a := a, hi := hi, lo := lo }
  | .entMake kind a f => { op := 0x10, kind := kind.bit, a := a, f := f }
  | .entGetAddress kind a => { op := 0x11, kind := kind.bit, a := a }
  | .entIsPresent kind a => { op := 0x12, kind := kind.bit, a := a }
  | .entIsWriteable kind a => { op := 0x13, kind := kind.bit, a := a }
  | .entCanUserAccess kind a => { op := 0x14, kind := kind.bit, a := a }
  | .entWasAccessed kind a => { op := 0x15, kind := kind.bit, a := a }
  | .entIsDirty kind a => { op := 0x16, kind := kind.bit, a := a }
  | .entMarkPresent kind a => { op := 0x18, kind := kind.bit, a := a }
  | .entMarkNotPresent kind a => { op := 0x19, kind := kind.bit, a := a }
  | .entEnableWriting kind a => { op := 0x1A, kind := kind.bit, a := a }
  | .entDisableWriting kind a => { op := 0x1B, kind := kind.bit, a := a }
  | .entEnableUserAccess kind a => { op := 0x1C, kind := kind.bit, a := a }
  | .entDisableUserAccess kind a => { op := 0x1D, kind := kind.bit, a := a }
  | .entResetAccessed kind a => { op := 0x1E, kind := kind.bit, a := a }
  | .ctInit kind tsel mode f b => { op := 0x20, kind := kind.bit, tsel := tsel, mode := mode.bit, f := f, b := b }
  | .ctGet kind tsel a => { op := 0x21, kind := kind.bit, tsel := tsel, a := a }
  | .ctPut kind tsel a b f => { op := 0x22, kind := kind.bit, tsel := tsel, a := a, b := b, f := f }
  | .ctGetAddress kind tsel a => { op := 0x31, kind := kind.bit, tsel := tsel, a := a }
  | .ctIsPresent kind tsel a => { op := 0x32, kind := kind.bit, tsel := tsel, a := a }
  | .ctIsWriteable kind tsel a => { op := 0x33, kind := kind.bit, tsel := tsel, a := a }
  | .ctCanUserAccess kind tsel a => { op := 0x34, kind := kind.bit, tsel := tsel, a := a }
  | .ctWasAccessed kind tsel a => { op := 0x35, kind := kind.bit, tsel := tsel, a := a }
  | .ctIsDirty kind tsel a => { op := 0x36, kind := kind.bit, tsel := tsel, a := a }
  | .ctMarkPresent kind tsel a => { op := 0x38, kind := kind.bit, tsel := tsel, a := a }
  | .ctMarkNotPresent kind tsel a => { op := 0x39, kind := kind.bit, tsel := tsel, a := a }
  | .ctEnableWriting kind tsel a => { op := 0x3A, kind := kind.bit, tsel := tsel, a := a }
  | .ctDisableWriting kind tsel a => { op := 0x3B, kind := kind.bit, tsel := tsel, a := a }
  | .ctEnableUserAccess kind tsel a => { op := 0x3C, kind := kind.bit, tsel := tsel, a := a }
  | .ctDisableUserAccess kind tsel a => { op := 0x3D, kind := kind.bit, tsel := tsel, a := a }
  | .ctResetAccessed kind tsel a => { op := 0x3E, kind := kind.bit, tsel := tsel, a := a }
  | .pgSplit a => { op := 0x40, a := a }
  | .pgLookup a => { op := 0x41, a := a }
  | .pgMake f g mode => { op := 0x42, f := f, g := g, mode := mode.bit }
  | .pgMap a b f => { op := 0x43, a := a, b := b, f := f }
  | .pgLoad => { op := 0x44 }
  | .pgEnable => { op := 0x45 }
  | .pgDisable => { op := 0x46 }
  | .pgDestroy => { op := 0x47 }

/-- The 44 opcodes of R66, in the table's order. -/
def assignedOpcodes : List (BitVec 8) :=
  [0x01, 0x02, 0x03, 0x04, 0x05, 0x06, 0x10, 0x11, 0x12, 0x13, 0x14, 0x15,
   0x16, 0x18, 0x19, 0x1A, 0x1B, 0x1C, 0x1D, 0x1E, 0x20, 0x21, 0x22, 0x31,
   0x32, 0x33, 0x34, 0x35, 0x36, 0x38, 0x39, 0x3A, 0x3B, 0x3C, 0x3D, 0x3E,
   0x40, 0x41, 0x42, 0x43, 0x44, 0x45, 0x46, 0x47]

/-- A port besides `op` (R60). -/
inductive Port where
  | kind | tsel | mode | f | g | hi | lo | a | b
  deriving DecidableEq, Repr

/-- Column "Ports read" of R66, by opcode. -/
def portsRead (op : BitVec 8) : List Port :=
  match op with
  | 0x01#8 | 0x02#8 | 0x03#8 => [.a, .lo]
  | 0x04#8 | 0x06#8 => [.a, .hi, .lo]
  | 0x05#8 => [.a, .b, .hi, .lo]
  | 0x10#8 => [.kind, .a, .f]
  | 0x11#8 | 0x12#8 | 0x13#8 | 0x14#8 | 0x15#8 | 0x16#8 | 0x18#8 | 0x19#8 | 0x1A#8 | 0x1B#8
  | 0x1C#8 | 0x1D#8 | 0x1E#8 => [.kind, .a]
  | 0x20#8 => [.kind, .tsel, .mode, .f, .b]
  | 0x21#8 | 0x31#8 | 0x32#8 | 0x33#8 | 0x34#8 | 0x35#8 | 0x36#8 | 0x38#8 | 0x39#8 | 0x3A#8
  | 0x3B#8 | 0x3C#8 | 0x3D#8 | 0x3E#8 => [.kind, .tsel, .a]
  | 0x22#8 => [.kind, .tsel, .a, .b, .f]
  | 0x40#8 | 0x41#8 => [.a]
  | 0x42#8 => [.f, .g, .mode]
  | 0x43#8 => [.a, .b, .f]
  | 0x44#8 | 0x45#8 | 0x46#8 | 0x47#8 => []
  | _ => []

/-- Two commands carry the same value on a port. -/
def Ports.sameOn (p q : Ports) : Port → Bool
  | .kind => p.kind == q.kind
  | .tsel => p.tsel == q.tsel
  | .mode => p.mode == q.mode
  | .f => p.f == q.f
  | .g => p.g == q.g
  | .hi => p.hi == q.hi
  | .lo => p.lo == q.lo
  | .a => p.a == q.a
  | .b => p.b == q.b

/-- The command whose bits are `w`, as spec/opcode_table.json numbers them: the table numbers only `op` (bits 7..0); every
other port is 0 (log 13). -/
def tableWordPorts (nbits w : Nat) : Ports := { op := BitVec.ofNat 8 (w % 2 ^ nbits) }

/-- The instruction the decoder reads from a table word. -/
def decodeTableWord (nbits w : Nat) : Option Instr :=
  match decode (tableWordPorts nbits w) with
  | .ok i => some i
  | .error _ => none

end Sys2Proof
end

