-- ==== Sys2Proof/Config.lean ====
section
/-! DEFINITION. The block's fixed constants (spec/00_scope.md R6) and its open build-time parameters (R7). -/

namespace Sys2Proof

/-- R6 `ENTRIES`: entries in one page table and in the page directory. -/
abbrev Config.entries : Nat := 1024

/-- R6 `PAGE_SIZE`: bytes in one page, the address step between LINEAR entries. -/
abbrev Config.pageSize : Nat := 4096

/-- R6 `N_TABLES`: page tables in the block, one per directory slot. -/
abbrev Config.nTables : Nat := 1024

/-- The open parameters of R7. R7 requires each address to have its low 12 bits zero; holding only bits 31:12 makes
that so by construction (log 4). -/
structure Params where
  /-- `DIR_ADDR[31:12]`. -/
  dirPage : Page
  /-- `TABLE_ADDR(d)[31:12]`, d = 0, 1, …; a position past the end reads as page 0 (log 4). -/
  tablePages : List Page
  /-- `WALKER`: whether the CPU's paging unit acts as an agent (R49). -/
  walker : Bool
  deriving DecidableEq, Repr, Inhabited

/-- The parameters the block is built with. OPEN (R7, spec/92 D6, D27): no body, so nothing can be proved of its values;
`State.reset` takes it (log 3). -/
opaque Config.params : Params

end Sys2Proof
end

