-- ==== Sys2Proof/Machine/State.lean ====
section
/-! DEFINITION. All the state of the block (spec/10_state.md R20 to R29), its reset value (spec/70_reset_and_hazards.md R170),
and the reasons a step can stop. -/

namespace Sys2Proof.Machine

/-- `pg_state` (R23). Its 3-bit encoding is not observable on any port. -/
inductive PgState where
  | uninitialized
  | built
  | loaded
  | enabled
  | fatal
  deriving DecidableEq, Repr

/-- One call of a hardware paging primitive the block has made (R27). -/
inductive HwEvent where
  | load (base : Word)
  | enable
  | disable
  deriving DecidableEq, Repr

/-- The names of the status codes (spec/60_exceptions.md R150); codes 12 to 15 are reserved and never produced. -/
inductive Status where
  | ok
  | allocationFailure
  | invalidArgument
  | addressOutOfRange
  | corruptedAllocation
  | nonPresentPageTable
  | alignmentViolation
  | indexOutOfRange
  | outOfMemory
  | illegalOp
  | illegalState
  | unwritten
  deriving DecidableEq, Repr

/-- One value on each output port (spec/30_encoding.md R61). -/
structure Response where
  status : Status
  r      : Word
  r2     : Word
  deriving DecidableEq, Repr

/-- One draw of a walker step (spec/20_memory.md R49): a directory slot and optionally a table slot, with whether dirty is set. -/
structure WalkerDraw where
  d    : Index
  leaf : Option (Index × Bool)
  deriving DecidableEq, Repr

/-- What the outside does next (spec/00_scope.md R8 item 1; spec/60_exceptions.md R160): log 1. -/
inductive Input where
  /-- The caller presents a command. -/
  | command (p : Ports)
  /-- The walker takes a step with this draw. -/
  | walk (w : WalkerDraw)
  /-- The block is reset. -/
  | reset
  deriving DecidableEq, Repr

/-- The operands of the PG_MAKE that last wrote every slot (spec/43_paging.md R133). -/
structure MakeArgs where
  f    : Flags
  g    : Flags
  mode : InitMode
  deriving DecidableEq, Repr

/-- A unit of the entry storage: the directory, or one table by its number (R25, R42). -/
inductive UnitSel where
  | dir
  | tbl (t : Index)
  deriving DecidableEq, Repr

/-- Written slots that differ from what their slot reads as unlisted: (slot number, word), slot numbers strictly rising.
Directory slot i has number i; slot i of table t has number 1024*t + i (log 8). -/
abbrev Cells := List (Nat × Word)

/-- All the state of the block, and the model's own fields beside it. -/
structure State where
  /-- `pg_state` (R23). -/
  pgState : PgState
  /-- `loaded_base` (R24). -/
  loadedBase : Option Word
  /-- `paging_on` (R24). -/
  pagingOn : Bool
  /-- `hw_events` (R27), oldest first. -/
  hwEvents : List HwEvent
  /-- What a slot that no cell lists reads as: unwritten, or the word that PG_MAKE with these operands wrote (log 8). -/
  background : Option MakeArgs
  /-- The directory's cells (R25). -/
  dir : Cells
  /-- The tables' cells (R25). -/
  tbl : Cells
  /-- The response that the step which ended in this state produced: a command's answer (R61), and none after every other step
  and at reset, for the ports hold no value between commands (R20, R170; log 2). -/
  response : Option Response
  /-- The build-time parameters (R7), which no step writes; the model's own field (log 3). -/
  params : Params
  /-- What the outside does next, the next first; the model's own field (log 1). -/
  inputs : List Input
  deriving DecidableEq, Repr

/-- Why the machine stops. -/
inductive Fault where
  /-- Raised by every command, every walker step and an idle step in state FATAL: "no later command produces a response or
  changes any state; the walker takes no step" (R160); 93_implementation_defined.md U1: `fault`, and the faulted state is
  `stuck`. Safe: no state follows, so no claim about a following state can be proved (log 5). -/
  | fatal
  deriving DecidableEq, Repr

/-- Why an instruction has no meaning. -/
inductive Refusal where
  /-- Raised by an arm of `exec` whose instruction has no meaning yet. Safe: nothing follows. No arm raises it now. -/
  | notModelled (mnemonic : String)
  deriving DecidableEq, Repr

/-- What a step answers. -/
abbrev Result := Host.Outcome State Fault Refusal

/-- The state right after reset (R170). The parameters are the block's own (R7), and no input is waiting (log 9). -/
def State.reset : State where
  pgState := .uninitialized
  loadedBase := none
  pagingOn := false
  hwEvents := []
  background := none
  dir := []
  tbl := []
  response := none
  params := Config.params
  inputs := []

end Sys2Proof.Machine
end

