-- ==== Sys2Proof/Machine/Flags.lean ====
section
/-! DEFINITION. The flag bits of an entry word (spec/30_encoding.md R62, R63) and the status codes (spec/60_exceptions.md
R150). The block has no condition codes (spec/10_state.md R22). -/

namespace Sys2Proof.Machine

/-- The single-bit fields of an entry word (R62, R63). -/
inductive EntryBit where
  | present
  | writable
  | userAccessible
  | writeThrough
  | cacheDisable
  | accessed
  | dirty
  /-- PAT in a PTE, page-size in a PDE. -/
  | patOrPageSize
  /-- PTE only; its number is IA-32's, PRESUMED by the spec itself (93_implementation_defined.md G4; log 15). -/
  | globalBit
  deriving DecidableEq, Repr

/-- The bit number of a flag (R62, R63). -/
def entryBitPos : EntryBit → Nat
  | .present => 0
  | .writable => 1
  | .userAccessible => 2
  | .writeThrough => 3
  | .cacheDisable => 4
  | .accessed => 5
  | .dirty => 6
  | .patOrPageSize => 7
  | .globalBit => 8

/-- The word with only that flag set. -/
def entryBitMask (b : EntryBit) : Word := 1#32 <<< entryBitPos b

/-- The flag's value in an entry word (R93 to R97). -/
def flagOf (b : EntryBit) (w : Word) : Bool := w.getLsbD (entryBitPos b)

/-- The entry word with the flag forced to 1 (R98, R100, R102). -/
def flagSet (b : EntryBit) (w : Word) : Word := w ||| entryBitMask b

/-- The entry word with the flag forced to 0 (R99, R101, R103, R104). -/
def flagClear (b : EntryBit) (w : Word) : Word := w &&& ~~~(entryBitMask b)

/-- A one-bit result as it stands on port `r`: 0 or 1 (R61). -/
def bitResult (b : Bool) : Word := if b then 1 else 0

/-- The value of the `status` port (R150). -/
def statusCode : Status → BitVec 4
  | .ok => 0
  | .allocationFailure => 1
  | .invalidArgument => 2
  | .addressOutOfRange => 3
  | .corruptedAllocation => 4
  | .nonPresentPageTable => 5
  | .alignmentViolation => 6
  | .indexOutOfRange => 7
  | .outOfMemory => 8
  | .illegalOp => 9
  | .illegalState => 10
  | .unwritten => 11

end Sys2Proof.Machine
end

