-- ==== Sys2Proof/Machine/Operands.lean ====
section
/-! DEFINITION. How operands become fields and fields become results (spec/30_encoding.md R65), bit ranges (spec/40_bitfield.md
R80), the entry encoder (spec/41_entry.md R90) and the fields of a virtual address (spec/20_memory.md R55). -/

namespace Sys2Proof.Machine

/-- `mask(n)`, for 1 <= n <= 32: the word with bits n-1..0 set, `2^n - 1` (spec/00_scope.md R11). -/
def mask (n : Nat) : Word := BitVec.ofNat 32 (2 ^ n - 1)

/-- The length of the range hi..lo (R80). -/
def rangeLength (hi lo : BitPos) : Nat := hi.toNat - lo.toNat + 1

/-- An address operand that may be packed into an entry: its low 12 bits are zero (R48). -/
def aligned (addr : Word) : Bool := addr.extractLsb' 0 12 == 0#12

/-- The byte address an entry word holds: `{w[31:12], 0x000}` (R65, R92). -/
def addressOf (w : Word) : Word := w.extractLsb' 12 20 ++ 0#12

/-- `make_entry(addr, f) = addr | 0x00000018 | zext_32(f)` (R90), used only on aligned addresses. -/
def makeEntry (addr : Word) (f : Flags) : Word := addr ||| 0x18#32 ||| f.setWidth 32

/-- A slot index operand: the full 32 bits, valid below 1024 (R41). -/
def slotIndex (a : Word) : Option Index := if a.toNat < Config.entries then some (a.setWidth 10) else none

/-- The unit the ports `kind` and `tsel` name; `tsel` is ignored for the directory (R42). -/
def selectUnit : Kind → Index → UnitSel
  | .pte, tsel => .tbl tsel
  | .pde, _ => .dir

/-- The directory slot of a virtual address, `v[31:22]` (R55). -/
def directoryOffset (v : Word) : Index := v.extractLsb' 22 10

/-- The table slot of a virtual address, `v[21:12]` (R55). -/
def tableOffset (v : Word) : Index := v.extractLsb' 12 10

/-- `DIR_ADDR` (R7). -/
def dirAddr (p : Params) : Word := p.dirPage ++ 0#12

/-- `TABLE_ADDR(d)` (R7). -/
def tableAddr (p : Params) (d : Index) : Word := p.tablePages.getD d.toNat 0 ++ 0#12

/-- The largest base offset LINEAR initialization takes: `1023*4096 + base` is then 0xFFFFF000 (R110). -/
def maxLinearBase : Nat := 0xFFC00000

/-- The word CT_INIT writes into slot i (R110). -/
def initWord (mode : InitMode) (f : Flags) (b : Word) (i : Nat) : Word :=
  match mode with
  | .zeroed => makeEntry 0 f
  | .linear => makeEntry (BitVec.ofNat 32 (i * Config.pageSize + b.toNat)) f

/-- The word PG_MAKE writes into a slot: PDE d targets `TABLE_ADDR(d)` in both modes; PTE i of table d targets
`(d*1024 + i) * 4096` in LINEAR mode and 0 in ZEROED mode (R133). -/
def makeWord (p : Params) (m : MakeArgs) : UnitSel → Index → Word
  | .dir, d => makeEntry (tableAddr p d) m.f
  | .tbl d, i =>
    match m.mode with
    | .zeroed => makeEntry 0 m.g
    | .linear => makeEntry (BitVec.ofNat 32 ((d.toNat * Config.entries + i.toNat) * Config.pageSize)) m.g

/-- PG_MAP's rewritten PTE `{b[31:12], T[11:3], f[2], f[1], 1}` (R134). -/
def remapPte (b : Word) (f : Flags) (t : Word) : Word :=
  b.extractLsb' 12 20 ++ t.extractLsb' 3 9 ++ f.extractLsb' 1 2 ++ 1#1

/-- PG_MAP's widened PDE `P | {0[31:3], f[2], f[1], 0}` (R134, R135). -/
def widenPde (f : Flags) (p : Word) : Word := p ||| (f.extractLsb' 1 2 ++ 0#1).setWidth 32

/-- PG_LOOKUP's `r`: `{T[31:12], a[11:0]}` (R132). -/
def lookupAddress (a t : Word) : Word := t.extractLsb' 12 20 ++ a.extractLsb' 0 12

/-- PG_LOOKUP's `r2`: `{0[31:11], P[2:0], 0[7:3], T[2:0]}` (R132). -/
def lookupRights (p t : Word) : Word := 0#21 ++ p.extractLsb' 0 3 ++ 0#5 ++ t.extractLsb' 0 3

end Sys2Proof.Machine
end

