-- ==== Sys2Proof/Machine/Ops.lean ====
section
/-! DEFINITION. The shared operations: the entry storage (spec/20_memory.md R43, R44, R47), the two ways a command is answered
(spec/00_scope.md R11, spec/60_exceptions.md R152) and the fatal state (R160). The block takes no exception and returns from
none (R162, R163): a failing command is answered by `fail`. -/

namespace Sys2Proof.Machine

/-! ### Cells -/

/-- The word the cells list for a slot number. -/
def cellFind : Cells → Nat → Option Word
  | [], _ => none
  | (k, w) :: rest, n => if k = n then some w else cellFind rest n

/-- The cells with slot number n listed as w. -/
def cellInsert (n : Nat) (w : Word) : Cells → Cells
  | [] => [(n, w)]
  | (k, v) :: rest =>
    if n < k then (n, w) :: (k, v) :: rest
    else if k = n then (n, w) :: rest
    else (k, v) :: cellInsert n w rest

/-- The cells without slot number n. -/
def cellErase (n : Nat) (c : Cells) : Cells := c.filter fun e => e.1 != n

/-- Slot n becomes w, where u is what it reads as unlisted: a cell that says no more than that is not kept. -/
def cellWrite (u : Option Word) (n : Nat) (w : Word) (c : Cells) : Cells :=
  if u = some w then cellErase n c else cellInsert n w c

/-- Slots lo .. lo+1023 become `word 0` .. `word 1023`, where `unlisted i` is what slot lo+i reads as unlisted. -/
def cellFill (unlisted : Nat → Option Word) (lo : Nat) (word : Nat → Word) (c : Cells) : Cells :=
  (c.filter fun e => decide (e.1 < lo)) ++
    ((List.range Config.entries).filterMap fun i =>
      if unlisted i = some (word i) then none else some (lo + i, word i)) ++
    (c.filter fun e => decide (lo + Config.entries ≤ e.1))

/-- Slot numbers strictly rise. -/
def cellsRise : Cells → Bool
  | [] => true
  | [_] => true
  | e :: e' :: rest => decide (e.1 < e'.1) && cellsRise (e' :: rest)

/-! ### Entry storage -/

/-- The slot number of slot i of a unit. -/
def slotNumber : UnitSel → Index → Nat
  | .dir, i => i.toNat
  | .tbl t, i => t.toNat * Config.entries + i.toNat

/-- The list that holds a unit's cells. -/
def unitCells (s : State) : UnitSel → Cells
  | .dir => s.dir
  | .tbl _ => s.tbl

/-- What a slot that no cell lists reads as: unwritten (R25, R170), or what the last PG_MAKE wrote there (R133). -/
def unlistedAs (s : State) (u : UnitSel) (i : Index) : Option Word :=
  match s.background with
  | none => none
  | some m => some (makeWord s.params m u i)

/-- `EntRead`: the slot's word, or none where it is unwritten (R43). -/
def entRead (s : State) (u : UnitSel) (i : Index) : Option Word :=
  match cellFind (unitCells s u) (slotNumber u i) with
  | some w => some w
  | none => unlistedAs s u i

/-- The state with a unit's list of cells replaced. -/
def withCells (s : State) (u : UnitSel) (c : Cells) : State :=
  match u with
  | .dir => { s with dir := c }
  | .tbl _ => { s with tbl := c }

/-- `EntWrite`: the slot becomes w, no other slot changes (R44). -/
def entWrite (s : State) (u : UnitSel) (i : Index) (w : Word) : State :=
  withCells s u (cellWrite (unlistedAs s u i) (slotNumber u i) w (unitCells s u))

/-- All 1024 slots of a unit written, slot i with `word i` (R110). -/
def entFill (s : State) (u : UnitSel) (word : Nat → Word) : State :=
  withCells s u
    (cellFill (fun i => unlistedAs s u (BitVec.ofNat 10 i)) (slotNumber u 0#10) word (unitCells s u))

/-- Every slot of every unit written as PG_MAKE writes it (R133). -/
def entMakeAll (s : State) (m : MakeArgs) : State := { s with background := some m, dir := [], tbl := [] }

/-- Every slot of every unit unwritten (R139). -/
def entClearAll (s : State) : State := { s with background := none, dir := [], tbl := [] }

/-- A list of cells is in canonical form: slot numbers rise strictly and stay below the bound, and no cell says what its
slot reads as unlisted. -/
def cellsWf (bound : Nat) (unlisted : Nat → Option Word) (c : Cells) : Bool :=
  cellsRise c && c.all fun e => decide (e.1 < bound) && decide (unlisted e.1 ≠ some e.2)

/-- What directory slot number n reads as unlisted. -/
def dirUnlisted (s : State) (n : Nat) : Option Word := unlistedAs s .dir (BitVec.ofNat 10 n)

/-- What table slot number n reads as unlisted: slot n mod 1024 of table n / 1024. -/
def tblUnlisted (s : State) (n : Nat) : Option Word :=
  unlistedAs s (.tbl (BitVec.ofNat 10 (n / Config.entries))) (BitVec.ofNat 10 (n % Config.entries))

/-- The entry storage is in its canonical form (log 8). -/
def Memory.wf (s : State) : Bool :=
  cellsWf Config.entries (dirUnlisted s) s.dir && cellsWf (Config.nTables * Config.entries) (tblUnlisted s) s.tbl

/-- The base address of a unit's storage (R54). -/
def unitBase (p : Params) : UnitSel → Word
  | .dir => dirAddr p
  | .tbl t => tableAddr p t

/-- The byte view of R47: byte k (0..3) of entry i of a unit, as its address and its value; little-endian, PRESUMED by the
spec itself (93_implementation_defined.md G2; log 15). No rule of the block reads it. -/
def byteView (s : State) (u : UnitSel) (i : Index) (k : Nat) : Option (Nat × BitVec 8) :=
  match entRead s u i with
  | none => none
  | some w => some ((unitBase s.params u).toNat + 4 * i.toNat + k, w.extractLsb' (8 * k) 8)

/-! ### Answers -/

/-- The response ports hold this response. -/
def respond (s : State) (st : Status) (r r2 : Word) : State := { s with response := some ⟨st, r, r2⟩ }

/-- `ok(r, r2)`: the command ends with status OK and these results (R11). -/
def ok (s : State) (r r2 : Word) : Result := .next (respond s .ok r r2)

/-- `fail S`: the command ends with status S, r = 0 and r2 = 0, and no state of the block changes (R11, R152). -/
def fail (s : State) (st : Status) : Result := .next (respond s st 0 0)

/-- The response ports hold no value: what every step that is no command leaves there (R20). -/
def portsEmpty (s : State) : State := { s with response := none }

/-- In state FATAL nothing is answered and nothing changes: the step has no next state (R160; log 5). -/
def unlessFatal (s : State) (answer : Result) : Result :=
  match s.pgState with
  | .fatal => .fault .fatal
  | .uninitialized | .built | .loaded | .enabled => answer

/-- `emit E`: the event is appended to `hw_events` (R27). -/
def emit (s : State) (e : HwEvent) : State := { s with hwEvents := s.hwEvents ++ [e] }

/-- A command whose opcode is not assigned (R67, R154). -/
def illegalOpcode (s : State) : Result := unlessFatal s (fail s .illegalOp)

/-- A step with no input waiting: the block does nothing (R21; log 11), and its ports hold no value (R20). -/
def idle (s : State) : Result := unlessFatal s (.next (portsEmpty s))

/-- The block is reset (R170): every piece of its state takes its reset value; its parameters stay (R7), and so do the
inputs still to come (log 10). -/
def resetTurn (s : State) : Result := .next { State.reset with params := s.params, inputs := s.inputs }

end Sys2Proof.Machine
end

