-- ==== Sys2Proof/Machine/BitField.lean ====
section
/-! DEFINITION. The bit-field utilities (spec/40_bitfield.md R80 to R86): pure, answered in every state but FATAL. -/

namespace Sys2Proof.Machine

/-- The check every range utility makes first: `hi < lo` fails with INVALID_ARGUMENT (R80). -/
def withRange (hi lo : BitPos) (s : State) (answer : Result) : Result :=
  if hi.toNat < lo.toNat then fail s .invalidArgument else answer

/-- The bits of the range hi..lo (R85, R86). -/
def rangeMask (hi lo : BitPos) : Word := mask (rangeLength hi lo) <<< lo.toNat

/-- R81. -/
def execBfGetBit (a : Word) (lo : BitPos) (s : State) : Result :=
  unlessFatal s (ok s (bitResult (a.getLsbD lo.toNat)) 0)

/-- R82. -/
def execBfSetBit (a : Word) (lo : BitPos) (s : State) : Result :=
  unlessFatal s (ok s (a ||| (1#32 <<< lo.toNat)) 0)

/-- R83. -/
def execBfClrBit (a : Word) (lo : BitPos) (s : State) : Result :=
  unlessFatal s (ok s (a &&& ~~~(1#32 <<< lo.toNat)) 0)

/-- R84. -/
def execBfGetRange (a : Word) (hi lo : BitPos) (s : State) : Result :=
  unlessFatal s (withRange hi lo s (ok s ((a >>> lo.toNat) &&& mask (rangeLength hi lo)) 0))

/-- R85: a value too wide for the range is refused, not truncated. -/
def execBfSetRange (a b : Word) (hi lo : BitPos) (s : State) : Result :=
  unlessFatal s (withRange hi lo s
    (if rangeLength hi lo < 32 ∧ 2 ^ rangeLength hi lo ≤ b.toNat then fail s .invalidArgument
     else ok s ((a &&& ~~~(rangeMask hi lo)) ||| (b <<< lo.toNat)) 0))

/-- R86. -/
def execBfClrRange (a : Word) (hi lo : BitPos) (s : State) : Result :=
  unlessFatal s (withRange hi lo s (ok s (a &&& ~~~(rangeMask hi lo)) 0))

end Sys2Proof.Machine
end

