-- ==== Sys2Proof/Machine/Entry.lean ====
section
/-! DEFINITION. The entry encoder's pure forms (spec/41_entry.md R91 to R104): they read no state and write none. -/

namespace Sys2Proof.Machine

/-- A pure form whose result is a function of the operand word. -/
def pureForm (result : Word → Word) (a : Word) (s : State) : Result := unlessFatal s (ok s (result a) 0)

/-- An accessor's result: the flag on port r as 0 or 1 (R61). -/
def accessor (b : EntryBit) (w : Word) : Word := bitResult (flagOf b w)

/-- The check of the dirty accessors, before any other: a PDE has no dirty flag (R97, R153). -/
def withDirtyKind (kind : Kind) (s : State) (answer : Result) : Result :=
  match kind with
  | .pde => fail s .illegalOp
  | .pte => answer

/-- R91. -/
def execEntMake (_kind : Kind) (a : Word) (f : Flags) (s : State) : Result :=
  unlessFatal s (if aligned a then ok s (makeEntry a f) 0 else fail s .alignmentViolation)

/-- R92. -/
def execEntGetAddress (_kind : Kind) (a : Word) (s : State) : Result := pureForm addressOf a s

/-- R93. -/
def execEntIsPresent (_kind : Kind) (a : Word) (s : State) : Result := pureForm (accessor .present) a s

/-- R94. -/
def execEntIsWriteable (_kind : Kind) (a : Word) (s : State) : Result := pureForm (accessor .writable) a s

/-- R95. -/
def execEntCanUserAccess (_kind : Kind) (a : Word) (s : State) : Result := pureForm (accessor .userAccessible) a s

/-- R96. -/
def execEntWasAccessed (_kind : Kind) (a : Word) (s : State) : Result := pureForm (accessor .accessed) a s

/-- R97. -/
def execEntIsDirty (kind : Kind) (a : Word) (s : State) : Result :=
  unlessFatal s (withDirtyKind kind s (ok s (accessor .dirty a) 0))

/-- R98. -/
def execEntMarkPresent (_kind : Kind) (a : Word) (s : State) : Result := pureForm (flagSet .present) a s

/-- R99. -/
def execEntMarkNotPresent (_kind : Kind) (a : Word) (s : State) : Result := pureForm (flagClear .present) a s

/-- R100. -/
def execEntEnableWriting (_kind : Kind) (a : Word) (s : State) : Result := pureForm (flagSet .writable) a s

/-- R101. -/
def execEntDisableWriting (_kind : Kind) (a : Word) (s : State) : Result := pureForm (flagClear .writable) a s

/-- R102. -/
def execEntEnableUserAccess (_kind : Kind) (a : Word) (s : State) : Result := pureForm (flagSet .userAccessible) a s

/-- R103. -/
def execEntDisableUserAccess (_kind : Kind) (a : Word) (s : State) : Result := pureForm (flagClear .userAccessible) a s

/-- R104: the dirty bit is not touched. -/
def execEntResetAccessed (_kind : Kind) (a : Word) (s : State) : Result := pureForm (flagClear .accessed) a s

end Sys2Proof.Machine
end

