-- ==== Sys2Proof/Machine/Container.lean ====
section
/-! DEFINITION. The containers: initialization, indexed access and the stored forms (spec/42_container.md R109 to R126). They
are answered in every `pg_state` but FATAL and do not change it (R109). -/

namespace Sys2Proof.Machine

/-- The index check: an operand of 1024 or more fails with INDEX_OUT_OF_RANGE (R41, R157). -/
def withIndex (a : Word) (s : State) (answer : Index → Result) : Result :=
  match slotIndex a with
  | none => fail s .indexOutOfRange
  | some i => answer i

/-- The word of a slot; an unwritten slot fails with UNWRITTEN (R43, R158). -/
def withEntry (u : UnitSel) (i : Index) (s : State) (answer : Word → Result) : Result :=
  match entRead s u i with
  | none => fail s .unwritten
  | some w => answer w

/-- The prologue of the stored forms (R113). -/
def withSlot (u : UnitSel) (a : Word) (s : State) (answer : Index → Word → Result) : Result :=
  withIndex a s fun i => withEntry u i s fun w => answer i w

/-- A stored accessor: the pure result of the slot's word; nothing is written (R113). -/
def storedAccessor (result : Word → Word) (u : UnitSel) (a : Word) (s : State) : Result :=
  withSlot u a s fun _ w => ok s (result w) 0

/-- A stored mutator: the pure result is written back, r is 0 (R113). -/
def storedMutator (result : Word → Word) (u : UnitSel) (a : Word) (s : State) : Result :=
  withSlot u a s fun i w => ok (entWrite s u i (result w)) 0 0

/-- R110. -/
def execCtInit (kind : Kind) (tsel : Index) (mode : InitMode) (f : Flags) (b : Word) (s : State) : Result :=
  unlessFatal s
    (match mode with
     | .zeroed => ok (entFill s (selectUnit kind tsel) (initWord .zeroed f b)) 0 0
     | .linear =>
       if !aligned b then fail s .alignmentViolation
       else if maxLinearBase < b.toNat then fail s .addressOutOfRange
       else ok (entFill s (selectUnit kind tsel) (initWord .linear f b)) 0 0)

/-- R111. -/
def execCtGet (kind : Kind) (tsel : Index) (a : Word) (s : State) : Result :=
  unlessFatal s (storedAccessor id (selectUnit kind tsel) a s)

/-- R112: the index is checked before the address. -/
def execCtPut (kind : Kind) (tsel : Index) (a b : Word) (f : Flags) (s : State) : Result :=
  unlessFatal s (withIndex a s fun i =>
    if aligned b then ok (entWrite s (selectUnit kind tsel) i (makeEntry b f)) 0 0 else fail s .alignmentViolation)

/-- R114. -/
def execCtGetAddress (kind : Kind) (tsel : Index) (a : Word) (s : State) : Result :=
  unlessFatal s (storedAccessor addressOf (selectUnit kind tsel) a s)

/-- R115. -/
def execCtIsPresent (kind : Kind) (tsel : Index) (a : Word) (s : State) : Result :=
  unlessFatal s (storedAccessor (accessor .present) (selectUnit kind tsel) a s)

/-- R116. -/
def execCtIsWriteable (kind : Kind) (tsel : Index) (a : Word) (s : State) : Result :=
  unlessFatal s (storedAccessor (accessor .writable) (selectUnit kind tsel) a s)

/-- R117. -/
def execCtCanUserAccess (kind : Kind) (tsel : Index) (a : Word) (s : State) : Result :=
  unlessFatal s (storedAccessor (accessor .userAccessible) (selectUnit kind tsel) a s)

/-- R118. -/
def execCtWasAccessed (kind : Kind) (tsel : Index) (a : Word) (s : State) : Result :=
  unlessFatal s (storedAccessor (accessor .accessed) (selectUnit kind tsel) a s)

/-- R119: the kind is checked before the index. -/
def execCtIsDirty (kind : Kind) (tsel : Index) (a : Word) (s : State) : Result :=
  unlessFatal s (withDirtyKind kind s (storedAccessor (accessor .dirty) (selectUnit kind tsel) a s))

/-- R120. -/
def execCtMarkPresent (kind : Kind) (tsel : Index) (a : Word) (s : State) : Result :=
  unlessFatal s (storedMutator (flagSet .present) (selectUnit kind tsel) a s)

/-- R121. -/
def execCtMarkNotPresent (kind : Kind) (tsel : Index) (a : Word) (s : State) : Result :=
  unlessFatal s (storedMutator (flagClear .present) (selectUnit kind tsel) a s)

/-- R122. -/
def execCtEnableWriting (kind : Kind) (tsel : Index) (a : Word) (s : State) : Result :=
  unlessFatal s (storedMutator (flagSet .writable) (selectUnit kind tsel) a s)

/-- R123. -/
def execCtDisableWriting (kind : Kind) (tsel : Index) (a : Word) (s : State) : Result :=
  unlessFatal s (storedMutator (flagClear .writable) (selectUnit kind tsel) a s)

/-- R124. -/
def execCtEnableUserAccess (kind : Kind) (tsel : Index) (a : Word) (s : State) : Result :=
  unlessFatal s (storedMutator (flagSet .userAccessible) (selectUnit kind tsel) a s)

/-- R125. -/
def execCtDisableUserAccess (kind : Kind) (tsel : Index) (a : Word) (s : State) : Result :=
  unlessFatal s (storedMutator (flagClear .userAccessible) (selectUnit kind tsel) a s)

/-- R126. -/
def execCtResetAccessed (kind : Kind) (tsel : Index) (a : Word) (s : State) : Result :=
  unlessFatal s (storedMutator (flagClear .accessed) (selectUnit kind tsel) a s)

end Sys2Proof.Machine
end

