-- ==== Sys2Proof/Machine/Paging.lean ====
section
/-! DEFINITION. Lookup and paging orchestration (spec/43_paging.md R130 to R140). -/

namespace Sys2Proof.Machine

/-- A command that is legal in some states only: elsewhere it fails with ILLEGAL_STATE (R155). -/
def withState (legal : PgState → Bool) (s : State) (answer : Result) : Result :=
  if legal s.pgState then answer else fail s .illegalState

/-- PG_MAP and PG_LOAD are legal in BUILT and LOADED (R134, R136). -/
def builtOrLoaded : PgState → Bool
  | .built | .loaded => true
  | .uninitialized | .enabled | .fatal => false

/-- The lookup of PG_LOOKUP and PG_MAP: the PDE of the directory slot, which must be written and present, then the PTE of
the table found by number (R57, R26). -/
def withLookup (v : Word) (s : State) (answer : Word → Word → Result) : Result :=
  withEntry .dir (directoryOffset v) s fun p =>
    if flagOf .present p then
      withEntry (.tbl (directoryOffset v)) (tableOffset v) s fun t => answer p t
    else fail s .nonPresentPageTable

/-- R131. -/
def execPgSplit (a : Word) (s : State) : Result :=
  unlessFatal s (ok s ((directoryOffset a).setWidth 32) ((tableOffset a).setWidth 32))

/-- R132: read-only. -/
def execPgLookup (a : Word) (s : State) : Result :=
  unlessFatal s (withLookup a s fun p t => ok s (lookupAddress a t) (lookupRights p t))

/-- R133. -/
def execPgMake (f g : Flags) (mode : InitMode) (s : State) : Result :=
  unlessFatal s (withState (· == .uninitialized) s
    (ok { entMakeAll s ⟨f, g, mode⟩ with pgState := .built } 0 0))

/-- R134: state, lookup, then alignment; the PTE is rewritten and the PDE widened. -/
def execPgMap (a b : Word) (f : Flags) (s : State) : Result :=
  unlessFatal s (withState builtOrLoaded s (withLookup a s fun p t =>
    if aligned b then
      ok (entWrite (entWrite s (.tbl (directoryOffset a)) (tableOffset a) (remapPte b f t))
        .dir (directoryOffset a) (widenPde f p)) 0 0
    else fail s .alignmentViolation))

/-- R136. -/
def execPgLoad (s : State) : Result :=
  unlessFatal s (withState builtOrLoaded s
    (ok { emit s (.load (dirAddr s.params)) with loadedBase := some (dirAddr s.params), pgState := .loaded } 0 0))

/-- R137: before load, the state becomes FATAL and no response is produced. -/
def execPgEnable (s : State) : Result :=
  unlessFatal s
    (match s.pgState with
     | .loaded | .enabled => ok { emit s .enable with pagingOn := true, pgState := .enabled } 0 0
     | .uninitialized | .built | .fatal =>
       .next { emit s .enable with pagingOn := true, pgState := .fatal, response := none })

/-- R138. -/
def execPgDisable (s : State) : Result :=
  unlessFatal s
    (ok { emit s .disable with
      pagingOn := false
      pgState := match s.pgState with
        | .enabled => .loaded
        | .uninitialized => .uninitialized
        | .built => .built
        | .loaded => .loaded
        | .fatal => .fatal } 0 0)

/-- R139: `loaded_base` and `paging_on` stay, nothing is emitted. -/
def execPgDestroy (s : State) : Result :=
  unlessFatal s (withState (· != .enabled) s (ok { entClearAll s with pgState := .uninitialized } 0 0))

end Sys2Proof.Machine
end

