-- ==== Sys2Proof/Machine/Dispatch.lean ====
section
/-! DEFINITION. One arm per command, each one call of its meaning. -/

namespace Sys2Proof.Machine

/-- What a command does. -/
def exec (i : Instr) (s : State) : Host.Outcome State Fault Refusal :=
  match i with
  | .bfGetBit a lo => Sys2Proof.Machine.execBfGetBit a lo s
  | .bfSetBit a lo => Sys2Proof.Machine.execBfSetBit a lo s
  | .bfClrBit a lo => Sys2Proof.Machine.execBfClrBit a lo s
  | .bfGetRange a hi lo => Sys2Proof.Machine.execBfGetRange a hi lo s
  | .bfSetRange a b hi lo => Sys2Proof.Machine.execBfSetRange a b hi lo s
  | .bfClrRange a hi lo => Sys2Proof.Machine.execBfClrRange a hi lo s
  | .entMake kind a f => Sys2Proof.Machine.execEntMake kind a f s
  | .entGetAddress kind a => Sys2Proof.Machine.execEntGetAddress kind a s
  | .entIsPresent kind a => Sys2Proof.Machine.execEntIsPresent kind a s
  | .entIsWriteable kind a => Sys2Proof.Machine.execEntIsWriteable kind a s
  | .entCanUserAccess kind a => Sys2Proof.Machine.execEntCanUserAccess kind a s
  | .entWasAccessed kind a => Sys2Proof.Machine.execEntWasAccessed kind a s
  | .entIsDirty kind a => Sys2Proof.Machine.execEntIsDirty kind a s
  | .entMarkPresent kind a => Sys2Proof.Machine.execEntMarkPresent kind a s
  | .entMarkNotPresent kind a => Sys2Proof.Machine.execEntMarkNotPresent kind a s
  | .entEnableWriting kind a => Sys2Proof.Machine.execEntEnableWriting kind a s
  | .entDisableWriting kind a => Sys2Proof.Machine.execEntDisableWriting kind a s
  | .entEnableUserAccess kind a => Sys2Proof.Machine.execEntEnableUserAccess kind a s
  | .entDisableUserAccess kind a => Sys2Proof.Machine.execEntDisableUserAccess kind a s
  | .entResetAccessed kind a => Sys2Proof.Machine.execEntResetAccessed kind a s
  | .ctInit kind tsel mode f b => Sys2Proof.Machine.execCtInit kind tsel mode f b s
  | .ctGet kind tsel a => Sys2Proof.Machine.execCtGet kind tsel a s
  | .ctPut kind tsel a b f => Sys2Proof.Machine.execCtPut kind tsel a b f s
  | .ctGetAddress kind tsel a => Sys2Proof.Machine.execCtGetAddress kind tsel a s
  | .ctIsPresent kind tsel a => Sys2Proof.Machine.execCtIsPresent kind tsel a s
  | .ctIsWriteable kind tsel a => Sys2Proof.Machine.execCtIsWriteable kind tsel a s
  | .ctCanUserAccess kind tsel a => Sys2Proof.Machine.execCtCanUserAccess kind tsel a s
  | .ctWasAccessed kind tsel a => Sys2Proof.Machine.execCtWasAccessed kind tsel a s
  | .ctIsDirty kind tsel a => Sys2Proof.Machine.execCtIsDirty kind tsel a s
  | .ctMarkPresent kind tsel a => Sys2Proof.Machine.execCtMarkPresent kind tsel a s
  | .ctMarkNotPresent kind tsel a => Sys2Proof.Machine.execCtMarkNotPresent kind tsel a s
  | .ctEnableWriting kind tsel a => Sys2Proof.Machine.execCtEnableWriting kind tsel a s
  | .ctDisableWriting kind tsel a => Sys2Proof.Machine.execCtDisableWriting kind tsel a s
  | .ctEnableUserAccess kind tsel a => Sys2Proof.Machine.execCtEnableUserAccess kind tsel a s
  | .ctDisableUserAccess kind tsel a => Sys2Proof.Machine.execCtDisableUserAccess kind tsel a s
  | .ctResetAccessed kind tsel a => Sys2Proof.Machine.execCtResetAccessed kind tsel a s
  | .pgSplit a => Sys2Proof.Machine.execPgSplit a s
  | .pgLookup a => Sys2Proof.Machine.execPgLookup a s
  | .pgMake f g mode => Sys2Proof.Machine.execPgMake f g mode s
  | .pgMap a b f => Sys2Proof.Machine.execPgMap a b f s
  | .pgLoad => Sys2Proof.Machine.execPgLoad s
  | .pgEnable => Sys2Proof.Machine.execPgEnable s
  | .pgDisable => Sys2Proof.Machine.execPgDisable s
  | .pgDestroy => Sys2Proof.Machine.execPgDestroy s

end Sys2Proof.Machine
end

