-- ==== Sys2Proof/Machine/Walker.lean ====
section
/-! DEFINITION. The walker, the one outside writer of the entry storage (spec/20_memory.md R49). That a CPU sets these bits is
PRESUMED by the spec itself (93_implementation_defined.md G1; log 15). -/

namespace Sys2Proof.Machine

/-- When the walker may take a step: `WALKER` is true, `paging_on = 1`, and `pg_state` is not FATAL (R49). -/
def walkerEnabled (s : State) : Bool := s.params.walker && s.pagingOn && s.pgState != .fatal

/-- The slot's word, where it is written and present. -/
def presentEntry (s : State) (u : UnitSel) (i : Index) : Option Word :=
  match entRead s u i with
  | none => none
  | some w => if flagOf .present w then some w else none

/-- The walker's writes for one draw, or none where the draw's requirements do not hold (R49; log 6). -/
def walkerWrites (draw : WalkerDraw) (s : State) : Option State :=
  match presentEntry s .dir draw.d with
  | none => none
  | some p =>
    let s' := entWrite s .dir draw.d (flagSet .accessed p)
    match draw.leaf with
    | none => some s'
    | some (i, dirty) =>
      match presentEntry s (.tbl draw.d) i with
      | none => none
      | some t =>
        let t' := flagSet .accessed t
        some (entWrite s' (.tbl draw.d) i (if dirty then flagSet .dirty t' else t'))

/-- A walker step. Where the walker may take none, or the draw's requirements do not hold, nothing happens (log 6, log 7). It is
no command, so the response ports hold no value after it (R20). -/
def walkerTurn (draw : WalkerDraw) (s : State) : Result :=
  unlessFatal s
    (if walkerEnabled s then
       match walkerWrites draw s with
       | none => .next (portsEmpty s)
       | some s' => .next (portsEmpty s')
     else .next (portsEmpty s))

end Sys2Proof.Machine
end

