-- ==== Sys2Proof/Machine/Step.lean ====
section
/-! DEFINITION. One step of the machine: the next input is taken (spec/20_memory.md R45, R50; log 1). -/

namespace Sys2Proof.Machine

/-- The command on the command port is decoded and executed whole (R45, R66); an unassigned opcode is answered with
ILLEGAL_OP (R67). -/
def commandTurn (p : Ports) (s : State) : Host.Outcome State Fault Refusal :=
  match decode p with
  | .ok i => exec i s
  | .error _ => illegalOpcode s

/-- One step: the head of `inputs` is taken and acted on. -/
def step (s : State) : Host.Outcome State Fault Refusal :=
  match s.inputs with
  | [] => idle s
  | .command p :: rest => commandTurn p { s with inputs := rest }
  | .walk draw :: rest => walkerTurn draw { s with inputs := rest }
  | .reset :: rest => resetTurn { s with inputs := rest }

/-- The command of a table word is the next input (log 12, log 13). -/
def State.withFetchWord (s : State) (nbits w : Nat) : State :=
  { s with inputs := .command (tableWordPorts nbits w) :: s.inputs }

end Sys2Proof.Machine
end

