-- ==== Sys2Proof/Safety.lean ====
section
/-! DEFINITION. What counts as a safe run (spec/60_exceptions.md R160) and the properties that the claims about states and
steps are written in (spec/10_state.md R30, spec/43_paging.md R141 item 5). -/

namespace Sys2Proof.Machine

/-- A safe state: FATAL is not reached (R160). -/
def Safe (s : State) : Bool := s.pgState != .fatal

/-- R30 items 1 to 3, of one written slot: bits 4 and 3 are 1, bits 11:7 are 0, and bit 6 is 0 in the directory. -/
def entryWordOk (u : UnitSel) (w : Word) : Bool :=
  w.getLsbD 4 && w.getLsbD 3 && (w.extractLsb' 7 5 == 0#5) &&
    match u with
    | .dir => !w.getLsbD 6
    | .tbl _ => true

/-- R30 items 1 to 3. -/
def StorageOk (s : State) : Prop := ∀ u i w, entRead s u i = some w → entryWordOk u w = true

/-- R30 item 5: in state BUILT, LOADED or ENABLED every slot is written. -/
def BuiltMeansWritten (s : State) : Prop :=
  s.pgState = .built ∨ s.pgState = .loaded ∨ s.pgState = .enabled → ∀ u i, entRead s u i ≠ none

/-- A `Load(base)` stands somewhere before the last `Enable` (R141 item 5). -/
def LoadBeforeLastEnable (base : Word) (es : List HwEvent) : Prop :=
  ∃ pre mid post, es = pre ++ .load base :: (mid ++ .enable :: post) ∧ HwEvent.enable ∉ post

/-- R141 item 5, with what it needs of the other states to be kept by every step. -/
structure ControlOk (s : State) : Prop where
  /-- Paging is on exactly in ENABLED and in FATAL, which is entered by turning it on (R137). -/
  pagingOn_iff : s.pagingOn = true ↔ s.pgState = .enabled ∨ s.pgState = .fatal
  /-- A loaded directory is the block's own (R136). -/
  loadedBase_eq : s.pgState = .loaded ∨ s.pgState = .enabled → s.loadedBase = some (dirAddr s.params)
  /-- A loaded directory was handed to the CPU (R136). -/
  load_mem : s.pgState = .loaded ∨ s.pgState = .enabled → HwEvent.load (dirAddr s.params) ∈ s.hwEvents
  /-- Enabled only after it was loaded (R141 item 5). -/
  load_before_enable : s.pgState = .enabled → LoadBeforeLastEnable (dirAddr s.params) s.hwEvents

/-- The control state is the same (R23, R24, R27). -/
def SameControl (s t : State) : Prop :=
  t.pgState = s.pgState ∧ t.loadedBase = s.loadedBase ∧ t.pagingOn = s.pagingOn ∧ t.hwEvents = s.hwEvents

/-- The parameters and the inputs still to come are the same. -/
def SameOutside (s t : State) : Prop := t.params = s.params ∧ t.inputs = s.inputs

/-- t is s but for one slot, which holds w, and the response (R44). -/
def StoredOne (s t : State) (u : UnitSel) (i : Index) (w : Word) : Prop :=
  SameControl s t ∧ SameOutside s t ∧
    ∀ u' i', entRead t u' i' = if u' = u ∧ i' = i then some w else entRead s u' i'

/-- The paging commands, `43_paging.md`; the others are those of `40_bitfield.md`, `41_entry.md` and `42_container.md`. -/
def isPaging : Instr → Bool
  | .pgSplit _ | .pgLookup _ | .pgMake _ _ _ | .pgMap _ _ _ | .pgLoad | .pgEnable | .pgDisable | .pgDestroy => true
  | .bfGetBit _ _ | .bfSetBit _ _ | .bfClrBit _ _ | .bfGetRange _ _ _ | .bfSetRange _ _ _ _ | .bfClrRange _ _ _
  | .entMake _ _ _ | .entGetAddress _ _ | .entIsPresent _ _ | .entIsWriteable _ _ | .entCanUserAccess _ _
  | .entWasAccessed _ _ | .entIsDirty _ _ | .entMarkPresent _ _ | .entMarkNotPresent _ _ | .entEnableWriting _ _
  | .entDisableWriting _ _ | .entEnableUserAccess _ _ | .entDisableUserAccess _ _ | .entResetAccessed _ _
  | .ctInit _ _ _ _ _ | .ctGet _ _ _ | .ctPut _ _ _ _ _ | .ctGetAddress _ _ _ | .ctIsPresent _ _ _
  | .ctIsWriteable _ _ _ | .ctCanUserAccess _ _ _ | .ctWasAccessed _ _ _ | .ctIsDirty _ _ _ | .ctMarkPresent _ _ _
  | .ctMarkNotPresent _ _ _ | .ctEnableWriting _ _ _ | .ctDisableWriting _ _ _ | .ctEnableUserAccess _ _ _
  | .ctDisableUserAccess _ _ _ | .ctResetAccessed _ _ _ => false

/-- The unit the ports name (R42). -/
def namedUnit : Kind → Index → UnitSel
  | .pde, _ => .dir
  | .pte, tsel => .tbl tsel

/-- The commands that may write the entry storage (R29's column "Written by"), with the unit they write (R42). -/
def writesUnit (i : Instr) (u : UnitSel) : Bool :=
  match i with
  | .ctInit kind tsel _ _ _ | .ctPut kind tsel _ _ _ | .ctMarkPresent kind tsel _ | .ctMarkNotPresent kind tsel _
  | .ctEnableWriting kind tsel _ | .ctDisableWriting kind tsel _ | .ctEnableUserAccess kind tsel _
  | .ctDisableUserAccess kind tsel _ | .ctResetAccessed kind tsel _ => u == namedUnit kind tsel
  | .pgMap a _ _ => u == .dir || u == .tbl (a.extractLsb' 22 10)
  | .pgMake _ _ _ | .pgDestroy => true
  | .bfGetBit _ _ | .bfSetBit _ _ | .bfClrBit _ _ | .bfGetRange _ _ _ | .bfSetRange _ _ _ _ | .bfClrRange _ _ _
  | .entMake _ _ _ | .entGetAddress _ _ | .entIsPresent _ _ | .entIsWriteable _ _ | .entCanUserAccess _ _
  | .entWasAccessed _ _ | .entIsDirty _ _ | .entMarkPresent _ _ | .entMarkNotPresent _ _ | .entEnableWriting _ _
  | .entDisableWriting _ _ | .entEnableUserAccess _ _ | .entDisableUserAccess _ _ | .entResetAccessed _ _
  | .ctGet _ _ _ | .ctGetAddress _ _ _ | .ctIsPresent _ _ _ | .ctIsWriteable _ _ _ | .ctCanUserAccess _ _ _
  | .ctWasAccessed _ _ _ | .ctIsDirty _ _ _
  | .pgSplit _ | .pgLookup _ | .pgLoad | .pgEnable | .pgDisable => false

end Sys2Proof.Machine
end

