-- ==== Sys2Proof/Certificates/Slice0/Obligations.lean ====
section
/-! DEFINITION. The statements for the provers, from the numbered rules of spec/. A result is written out from the rule's own
pseudocode, not with the model's functions, so that it says what the rule says. `exec i s = .next t` is the completion of `i`:
the hypotheses are on the state and the operands alone. A decision number D<n> names the row of 92_eei_decisions.md that the
rule itself cites. -/

open Sys2Proof Sys2Proof.Machine

/-! ### Bit-field utilities -/

/-- R81, R82, R83: the three single-bit utilities (bfGetBit, bfSetBit, bfClrBit), whole result and whole frame. -/
def Obligations.SingleBitUtilitiesAnswer : Prop :=
  ∀ (s : State) (a : Word) (lo : BitPos), s.pgState ≠ .fatal →
    exec (.bfGetBit a lo) s = .next { s with response := some ⟨.ok, (a.extractLsb' lo.toNat 1).setWidth 32, 0⟩ } ∧
    exec (.bfSetBit a lo) s = .next { s with response := some ⟨.ok, a ||| (1#32 <<< lo.toNat), 0⟩ } ∧
    exec (.bfClrBit a lo) s = .next { s with response := some ⟨.ok, a &&& ~~~(1#32 <<< lo.toNat), 0⟩ }

/-- R84 (D26): bfGetRange; the pseudocode's value, and what it is bit by bit. -/
def Obligations.GetRangeAnswers : Prop :=
  ∀ (s : State) (a : Word) (hi lo : BitPos), s.pgState ≠ .fatal →
    (hi.toNat < lo.toNat →
      exec (.bfGetRange a hi lo) s = .next { s with response := some ⟨.invalidArgument, 0, 0⟩ }) ∧
    (lo.toNat ≤ hi.toNat →
      ∃ r : Word, exec (.bfGetRange a hi lo) s = .next { s with response := some ⟨.ok, r, 0⟩ } ∧
        r = (a >>> lo.toNat) &&& BitVec.ofNat 32 (2 ^ (hi.toNat - lo.toNat + 1) - 1) ∧
        ∀ j, r.getLsbD j = (decide (lo.toNat + j ≤ hi.toNat) && a.getLsbD (lo.toNat + j)))

/-- R85 (D26): bfSetRange; ill-formed range, value too wide, and the stored value bit by bit. -/
def Obligations.SetRangeAnswers : Prop :=
  ∀ (s : State) (a b : Word) (hi lo : BitPos), s.pgState ≠ .fatal →
    (hi.toNat < lo.toNat →
      exec (.bfSetRange a b hi lo) s = .next { s with response := some ⟨.invalidArgument, 0, 0⟩ }) ∧
    (lo.toNat ≤ hi.toNat → 2 ^ (hi.toNat - lo.toNat + 1) ≤ b.toNat →
      exec (.bfSetRange a b hi lo) s = .next { s with response := some ⟨.invalidArgument, 0, 0⟩ }) ∧
    (lo.toNat ≤ hi.toNat → b.toNat < 2 ^ (hi.toNat - lo.toNat + 1) →
      ∃ r : Word, exec (.bfSetRange a b hi lo) s = .next { s with response := some ⟨.ok, r, 0⟩ } ∧
        r = (a &&& ~~~(BitVec.ofNat 32 (2 ^ (hi.toNat - lo.toNat + 1) - 1) <<< lo.toNat)) ||| (b <<< lo.toNat) ∧
        ∀ j, r.getLsbD j =
          if lo.toNat ≤ j ∧ j ≤ hi.toNat then b.getLsbD (j - lo.toNat) else a.getLsbD j)

/-- R86 (D26): bfClrRange. -/
def Obligations.ClrRangeAnswers : Prop :=
  ∀ (s : State) (a : Word) (hi lo : BitPos), s.pgState ≠ .fatal →
    (hi.toNat < lo.toNat →
      exec (.bfClrRange a hi lo) s = .next { s with response := some ⟨.invalidArgument, 0, 0⟩ }) ∧
    (lo.toNat ≤ hi.toNat →
      ∃ r : Word, exec (.bfClrRange a hi lo) s = .next { s with response := some ⟨.ok, r, 0⟩ } ∧
        r = a &&& ~~~(BitVec.ofNat 32 (2 ^ (hi.toNat - lo.toNat + 1) - 1) <<< lo.toNat) ∧
        ∀ j, r.getLsbD j = (!decide (lo.toNat ≤ j ∧ j ≤ hi.toNat) && a.getLsbD j))

/-- R87, which the spec marks as derived: the laws of the utilities, and make_entry in their terms. -/
def Obligations.RangeLaws : Prop :=
  ∀ (s : State) (a b : Word) (hi lo : BitPos), s.pgState ≠ .fatal →
    (lo.toNat ≤ hi.toNat → b.toNat < 2 ^ (hi.toNat - lo.toNat + 1) →
      ∃ w, exec (.bfSetRange a b hi lo) s = .next { s with response := some ⟨.ok, w, 0⟩ } ∧
        exec (.bfGetRange w hi lo) s = .next { s with response := some ⟨.ok, b, 0⟩ }) ∧
    (lo.toNat ≤ hi.toNat →
      ∃ v, exec (.bfGetRange a hi lo) s = .next { s with response := some ⟨.ok, v, 0⟩ } ∧
        exec (.bfSetRange a v hi lo) s = .next { s with response := some ⟨.ok, a, 0⟩ }) ∧
    (lo.toNat ≤ hi.toNat →
      ∃ w, exec (.bfClrRange a hi lo) s = .next { s with response := some ⟨.ok, w, 0⟩ } ∧
        exec (.bfGetRange w hi lo) s = .next { s with response := some ⟨.ok, 0, 0⟩ }) ∧
    (∃ w, exec (.bfSetBit a lo) s = .next { s with response := some ⟨.ok, w, 0⟩ } ∧
      exec (.bfGetBit w lo) s = .next { s with response := some ⟨.ok, 1, 0⟩ }) ∧
    (∃ w, exec (.bfClrBit a lo) s = .next { s with response := some ⟨.ok, w, 0⟩ } ∧
      exec (.bfGetBit w lo) s = .next { s with response := some ⟨.ok, 0, 0⟩ }) ∧
    (∀ (kind : Kind) (f : Flags), a.extractLsb' 0 12 = 0#12 →
      ∃ w e, exec (.bfSetRange 0x18#32 (a >>> 12) 31#5 12#5) s = .next { s with response := some ⟨.ok, w, 0⟩ } ∧
        exec (.bfSetRange w (f.setWidth 32) 2#5 0#5) s = .next { s with response := some ⟨.ok, e, 0⟩ } ∧
        exec (.entMake kind a f) s = .next { s with response := some ⟨.ok, e, 0⟩ })

/-! ### The entry encoder -/

/-- R90, R91 (D10): entMake, field by field, for both kinds; an unaligned address is refused. -/
def Obligations.EntryIsMadeFieldByField : Prop :=
  ∀ (s : State) (kind : Kind) (a : Word) (f : Flags), s.pgState ≠ .fatal →
    (a.extractLsb' 0 12 ≠ 0#12 →
      exec (.entMake kind a f) s = .next { s with response := some ⟨.alignmentViolation, 0, 0⟩ }) ∧
    (a.extractLsb' 0 12 = 0#12 →
      ∃ w : Word, exec (.entMake kind a f) s = .next { s with response := some ⟨.ok, w, 0⟩ } ∧
        w = a ||| 0x00000018#32 ||| f.setWidth 32 ∧
        w.extractLsb' 12 20 = a.extractLsb' 12 20 ∧ w.extractLsb' 8 4 = 0#4 ∧
        w.getLsbD 7 = false ∧ w.getLsbD 6 = false ∧ w.getLsbD 5 = false ∧
        w.getLsbD 4 = true ∧ w.getLsbD 3 = true ∧
        w.getLsbD 2 = f.getLsbD 2 ∧ w.getLsbD 1 = f.getLsbD 1 ∧ w.getLsbD 0 = f.getLsbD 0)

/-- R92 to R96: entGetAddress, entIsPresent, entIsWriteable, entCanUserAccess, entWasAccessed. -/
def Obligations.PureAccessorsAnswer : Prop :=
  ∀ (s : State) (kind : Kind) (a : Word), s.pgState ≠ .fatal →
    exec (.entGetAddress kind a) s = .next { s with response := some ⟨.ok, a.extractLsb' 12 20 ++ 0#12, 0⟩ } ∧
    exec (.entIsPresent kind a) s = .next { s with response := some ⟨.ok, (a.extractLsb' 0 1).setWidth 32, 0⟩ } ∧
    exec (.entIsWriteable kind a) s = .next { s with response := some ⟨.ok, (a.extractLsb' 1 1).setWidth 32, 0⟩ } ∧
    exec (.entCanUserAccess kind a) s = .next { s with response := some ⟨.ok, (a.extractLsb' 2 1).setWidth 32, 0⟩ } ∧
    exec (.entWasAccessed kind a) s = .next { s with response := some ⟨.ok, (a.extractLsb' 5 1).setWidth 32, 0⟩ }

/-- R97 (D13): entIsDirty, refused for a PDE. -/
def Obligations.PureDirtyAccessorAnswers : Prop :=
  ∀ (s : State) (a : Word), s.pgState ≠ .fatal →
    exec (.entIsDirty .pte a) s = .next { s with response := some ⟨.ok, (a.extractLsb' 6 1).setWidth 32, 0⟩ } ∧
    exec (.entIsDirty .pde a) s = .next { s with response := some ⟨.illegalOp, 0, 0⟩ }

/-- R98 to R104: entMarkPresent, entMarkNotPresent, entEnableWriting, entDisableWriting, entEnableUserAccess,
entDisableUserAccess, entResetAccessed, with the rules' own masks. -/
def Obligations.PureMutatorsAnswer : Prop :=
  ∀ (s : State) (kind : Kind) (a : Word), s.pgState ≠ .fatal →
    exec (.entMarkPresent kind a) s = .next { s with response := some ⟨.ok, a ||| 0x00000001#32, 0⟩ } ∧
    exec (.entMarkNotPresent kind a) s = .next { s with response := some ⟨.ok, a &&& 0xFFFFFFFE#32, 0⟩ } ∧
    exec (.entEnableWriting kind a) s = .next { s with response := some ⟨.ok, a ||| 0x00000002#32, 0⟩ } ∧
    exec (.entDisableWriting kind a) s = .next { s with response := some ⟨.ok, a &&& 0xFFFFFFFD#32, 0⟩ } ∧
    exec (.entEnableUserAccess kind a) s = .next { s with response := some ⟨.ok, a ||| 0x00000004#32, 0⟩ } ∧
    exec (.entDisableUserAccess kind a) s = .next { s with response := some ⟨.ok, a &&& 0xFFFFFFFB#32, 0⟩ } ∧
    exec (.entResetAccessed kind a) s = .next { s with response := some ⟨.ok, a &&& 0xFFFFFFDF#32, 0⟩ }

/-- The pure mutators: the command, the bit it forces, the value it forces it to (R98 to R104). -/
def pureMutators : List ((Kind → Word → Instr) × Nat × Bool) :=
  [(.entMarkPresent, 0, true), (.entMarkNotPresent, 0, false), (.entEnableWriting, 1, true),
   (.entDisableWriting, 1, false), (.entEnableUserAccess, 2, true), (.entDisableUserAccess, 2, false),
   (.entResetAccessed, 5, false)]

/-- R105, which the spec marks as derived: a mutator forces its own bit and changes no other, and mutators on different bits
commute; the accessors read back what entMake was given. -/
def Obligations.EntryLaws : Prop :=
  (∀ (s : State) (kind : Kind) (w : Word), s.pgState ≠ .fatal → ∀ m ∈ pureMutators,
    ∃ w' : Word, exec (m.1 kind w) s = .next { s with response := some ⟨.ok, w', 0⟩ } ∧
      ∀ j, w'.getLsbD j = if j = m.2.1 then m.2.2 else w.getLsbD j) ∧
  (∀ (s : State) (kind : Kind) (w : Word), s.pgState ≠ .fatal → ∀ m ∈ pureMutators, ∀ m' ∈ pureMutators,
    m.2.1 ≠ m'.2.1 →
    ∃ x y z : Word, exec (m.1 kind w) s = .next { s with response := some ⟨.ok, x, 0⟩ } ∧
      exec (m'.1 kind w) s = .next { s with response := some ⟨.ok, y, 0⟩ } ∧
      exec (m'.1 kind x) s = .next { s with response := some ⟨.ok, z, 0⟩ } ∧
      exec (m.1 kind y) s = .next { s with response := some ⟨.ok, z, 0⟩ }) ∧
  (∀ (s : State) (kind : Kind) (a : Word) (f : Flags), s.pgState ≠ .fatal → a.extractLsb' 0 12 = 0#12 →
    ∃ w, exec (.entMake kind a f) s = .next { s with response := some ⟨.ok, w, 0⟩ } ∧
      exec (.entGetAddress kind w) s = .next { s with response := some ⟨.ok, a, 0⟩ } ∧
      exec (.entIsPresent kind w) s = .next { s with response := some ⟨.ok, (f.extractLsb' 0 1).setWidth 32, 0⟩ } ∧
      exec (.entIsWriteable kind w) s = .next { s with response := some ⟨.ok, (f.extractLsb' 1 1).setWidth 32, 0⟩ } ∧
      exec (.entCanUserAccess kind w) s = .next { s with response := some ⟨.ok, (f.extractLsb' 2 1).setWidth 32, 0⟩ } ∧
      exec (.entWasAccessed kind w) s = .next { s with response := some ⟨.ok, 0, 0⟩ } ∧
      exec (.entIsDirty .pte w) s = .next { s with response := some ⟨.ok, 0, 0⟩ })

/-! ### The containers -/

/-- R110 (D10, D11): ctInit in both modes, its two refusals, and every slot of every unit afterwards. -/
def Obligations.InitFillsTheUnit : Prop :=
  ∀ (s : State) (kind : Kind) (tsel : Index) (mode : InitMode) (f : Flags) (b : Word), s.pgState ≠ .fatal →
    (mode = .linear → b.extractLsb' 0 12 ≠ 0#12 →
      exec (.ctInit kind tsel mode f b) s = .next { s with response := some ⟨.alignmentViolation, 0, 0⟩ }) ∧
    (mode = .linear → b.extractLsb' 0 12 = 0#12 → 0xFFC00000 < b.toNat →
      exec (.ctInit kind tsel mode f b) s = .next { s with response := some ⟨.addressOutOfRange, 0, 0⟩ }) ∧
    (mode = .zeroed ∨ (mode = .linear ∧ b.extractLsb' 0 12 = 0#12 ∧ b.toNat ≤ 0xFFC00000) →
      ∃ t, exec (.ctInit kind tsel mode f b) s = .next t ∧ t.response = some ⟨.ok, 0, 0⟩ ∧
        SameControl s t ∧ SameOutside s t ∧
        ∀ u i, entRead t u i =
          if u = namedUnit kind tsel then
            some ((if mode = .linear then BitVec.ofNat 32 (i.toNat * 4096 + b.toNat) else 0) ||| 0x18#32 ||| f.setWidth 32)
          else entRead s u i)

/-- R111 (D7): ctGet. The UNWRITTEN clause is the model's choice, log 14: R158 lets a model take a fault there. -/
def Obligations.GetReadsTheSlot : Prop :=
  ∀ (s : State) (kind : Kind) (tsel : Index) (a : Word), s.pgState ≠ .fatal →
    (1024 ≤ a.toNat → exec (.ctGet kind tsel a) s = .next { s with response := some ⟨.indexOutOfRange, 0, 0⟩ }) ∧
    (∀ i : Index, a.toNat = i.toNat → entRead s (namedUnit kind tsel) i = none →
      exec (.ctGet kind tsel a) s = .next { s with response := some ⟨.unwritten, 0, 0⟩ }) ∧
    (∀ (i : Index) (w : Word), a.toNat = i.toNat → entRead s (namedUnit kind tsel) i = some w →
      exec (.ctGet kind tsel a) s = .next { s with response := some ⟨.ok, w, 0⟩ })

/-- R112 (D10, D34): ctPut; the index is checked before the address. -/
def Obligations.PutStoresAFreshEntry : Prop :=
  ∀ (s : State) (kind : Kind) (tsel : Index) (a b : Word) (f : Flags), s.pgState ≠ .fatal →
    (1024 ≤ a.toNat → exec (.ctPut kind tsel a b f) s = .next { s with response := some ⟨.indexOutOfRange, 0, 0⟩ }) ∧
    (a.toNat < 1024 → b.extractLsb' 0 12 ≠ 0#12 →
      exec (.ctPut kind tsel a b f) s = .next { s with response := some ⟨.alignmentViolation, 0, 0⟩ }) ∧
    (∀ i : Index, a.toNat = i.toNat → b.extractLsb' 0 12 = 0#12 →
      ∃ t, exec (.ctPut kind tsel a b f) s = .next t ∧ t.response = some ⟨.ok, 0, 0⟩ ∧
        StoredOne s t (namedUnit kind tsel) i (b ||| 0x18#32 ||| f.setWidth 32))

/-- The stored accessors but the dirty one: the command and its pure result (R114 to R118). -/
def storedAccessors : List ((Kind → Index → Word → Instr) × (Word → Word)) :=
  [(.ctGetAddress, fun w => w.extractLsb' 12 20 ++ 0#12), (.ctIsPresent, fun w => (w.extractLsb' 0 1).setWidth 32),
   (.ctIsWriteable, fun w => (w.extractLsb' 1 1).setWidth 32),
   (.ctCanUserAccess, fun w => (w.extractLsb' 2 1).setWidth 32),
   (.ctWasAccessed, fun w => (w.extractLsb' 5 1).setWidth 32)]

/-- R114 to R118: ctGetAddress, ctIsPresent, ctIsWriteable, ctCanUserAccess, ctWasAccessed, with R113's prologue. The
UNWRITTEN clause is the model's choice, log 14: R158 lets a model take a fault there. -/
def Obligations.StoredAccessorsAnswer : Prop :=
  ∀ e ∈ storedAccessors, ∀ (s : State) (kind : Kind) (tsel : Index) (a : Word), s.pgState ≠ .fatal →
    (1024 ≤ a.toNat → exec (e.1 kind tsel a) s = .next { s with response := some ⟨.indexOutOfRange, 0, 0⟩ }) ∧
    (∀ i : Index, a.toNat = i.toNat → entRead s (namedUnit kind tsel) i = none →
      exec (e.1 kind tsel a) s = .next { s with response := some ⟨.unwritten, 0, 0⟩ }) ∧
    (∀ (i : Index) (w : Word), a.toNat = i.toNat → entRead s (namedUnit kind tsel) i = some w →
      exec (e.1 kind tsel a) s = .next { s with response := some ⟨.ok, e.2 w, 0⟩ })

/-- R119 (D13): ctIsDirty; on the directory it is refused whatever the index. The UNWRITTEN clause is the model's choice,
log 14: R158 lets a model take a fault there. -/
def Obligations.StoredDirtyAccessorAnswers : Prop :=
  ∀ (s : State) (tsel : Index) (a : Word), s.pgState ≠ .fatal →
    exec (.ctIsDirty .pde tsel a) s = .next { s with response := some ⟨.illegalOp, 0, 0⟩ } ∧
    (1024 ≤ a.toNat → exec (.ctIsDirty .pte tsel a) s = .next { s with response := some ⟨.indexOutOfRange, 0, 0⟩ }) ∧
    (∀ i : Index, a.toNat = i.toNat → entRead s (.tbl tsel) i = none →
      exec (.ctIsDirty .pte tsel a) s = .next { s with response := some ⟨.unwritten, 0, 0⟩ }) ∧
    (∀ (i : Index) (w : Word), a.toNat = i.toNat → entRead s (.tbl tsel) i = some w →
      exec (.ctIsDirty .pte tsel a) s = .next { s with response := some ⟨.ok, (w.extractLsb' 6 1).setWidth 32, 0⟩ })

/-- The stored mutators: the command and what it stores for a slot's word (R120 to R126). -/
def storedMutators : List ((Kind → Index → Word → Instr) × (Word → Word)) :=
  [(.ctMarkPresent, fun w => w ||| 0x00000001#32), (.ctMarkNotPresent, fun w => w &&& 0xFFFFFFFE#32),
   (.ctEnableWriting, fun w => w ||| 0x00000002#32), (.ctDisableWriting, fun w => w &&& 0xFFFFFFFD#32),
   (.ctEnableUserAccess, fun w => w ||| 0x00000004#32), (.ctDisableUserAccess, fun w => w &&& 0xFFFFFFFB#32),
   (.ctResetAccessed, fun w => w &&& 0xFFFFFFDF#32)]

/-- R120 to R126: ctMarkPresent, ctMarkNotPresent, ctEnableWriting, ctDisableWriting, ctEnableUserAccess,
ctDisableUserAccess, ctResetAccessed: the slot's new word, every other slot, the refusals, with R113's prologue. The
UNWRITTEN clause is the model's choice, log 14: R158 lets a model take a fault there. -/
def Obligations.StoredMutatorsWriteTheSlot : Prop :=
  ∀ e ∈ storedMutators, ∀ (s : State) (kind : Kind) (tsel : Index) (a : Word), s.pgState ≠ .fatal →
    (1024 ≤ a.toNat → exec (e.1 kind tsel a) s = .next { s with response := some ⟨.indexOutOfRange, 0, 0⟩ }) ∧
    (∀ i : Index, a.toNat = i.toNat → entRead s (namedUnit kind tsel) i = none →
      exec (e.1 kind tsel a) s = .next { s with response := some ⟨.unwritten, 0, 0⟩ }) ∧
    (∀ (i : Index) (w : Word), a.toNat = i.toNat → entRead s (namedUnit kind tsel) i = some w →
      ∃ t, exec (e.1 kind tsel a) s = .next t ∧ t.response = some ⟨.ok, 0, 0⟩ ∧
        StoredOne s t (namedUnit kind tsel) i (e.2 w))

/-- R127, which the spec marks as derived: what ctGet and ctGetAddress read back after ctInit and after ctPut. -/
def Obligations.ContainerLaws : Prop :=
  ∀ (s : State) (kind : Kind) (tsel : Index) (f : Flags) (b : Word), s.pgState ≠ .fatal →
    (b.extractLsb' 0 12 = 0#12 → b.toNat ≤ 0xFFC00000 →
      ∃ t, exec (.ctInit kind tsel .linear f b) s = .next t ∧ ∀ a : Word, a.toNat < 1024 →
        exec (.ctGetAddress kind tsel a) t = .next { t with response := some ⟨.ok, a * 4096 + b, 0⟩ } ∧
        exec (.ctGet kind tsel a) t =
          .next { t with response := some ⟨.ok, (a * 4096 + b) ||| 0x18#32 ||| f.setWidth 32, 0⟩ }) ∧
    (∃ t, exec (.ctInit kind tsel .zeroed f b) s = .next t ∧ ∀ a : Word, a.toNat < 1024 →
      exec (.ctGet kind tsel a) t = .next { t with response := some ⟨.ok, 0x18#32 ||| f.setWidth 32, 0⟩ }) ∧
    (b.extractLsb' 0 12 = 0#12 → ∀ a : Word, a.toNat < 1024 →
      ∃ t, exec (.ctPut kind tsel a b f) s = .next t ∧
        exec (.ctGet kind tsel a) t = .next { t with response := some ⟨.ok, b ||| 0x18#32 ||| f.setWidth 32, 0⟩ })

/-- R109 (D23): the commands that are not paging commands are answered in every state but FATAL and leave the control state. -/
def Obligations.OtherCommandsKeepTheControlState : Prop :=
  ∀ (i : Instr) (s : State), isPaging i = false → s.pgState ≠ .fatal →
    ∃ t, exec i s = .next t ∧ t.response ≠ none ∧ SameControl s t ∧ SameOutside s t

/-! ### Lookup and paging -/

/-- R131: pgSplit, with the source's decomposition property. -/
def Obligations.SplitDecomposesTheAddress : Prop :=
  ∀ (s : State) (a : Word), s.pgState ≠ .fatal →
    ∃ r r2 : Word, exec (.pgSplit a) s = .next { s with response := some ⟨.ok, r, r2⟩ } ∧
      r = (a.extractLsb' 22 10).setWidth 32 ∧ r2 = (a.extractLsb' 12 10).setWidth 32 ∧
      r.toNat = a.toNat / (1024 * 4096) ∧ r2.toNat = a.toNat / 4096 % 1024 ∧
      r.toNat * 1024 * 4096 + r2.toNat * 4096 ≤ a.toNat ∧ a.toNat < r.toNat * 1024 * 4096 + r2.toNat * 4096 + 4096

/-- R132 (D35): pgLookup, its refusals in their order, and both result ports. The UNWRITTEN clauses are the model's choice,
log 14: R158 lets a model take a fault there. -/
def Obligations.LookupReadsBothLevels : Prop :=
  ∀ (s : State) (a : Word), s.pgState ≠ .fatal →
    (entRead s .dir (a.extractLsb' 22 10) = none →
      exec (.pgLookup a) s = .next { s with response := some ⟨.unwritten, 0, 0⟩ }) ∧
    (∀ p, entRead s .dir (a.extractLsb' 22 10) = some p → p.getLsbD 0 = false →
      exec (.pgLookup a) s = .next { s with response := some ⟨.nonPresentPageTable, 0, 0⟩ }) ∧
    (∀ p, entRead s .dir (a.extractLsb' 22 10) = some p → p.getLsbD 0 = true →
      entRead s (.tbl (a.extractLsb' 22 10)) (a.extractLsb' 12 10) = none →
      exec (.pgLookup a) s = .next { s with response := some ⟨.unwritten, 0, 0⟩ }) ∧
    (∀ p t, entRead s .dir (a.extractLsb' 22 10) = some p → p.getLsbD 0 = true →
      entRead s (.tbl (a.extractLsb' 22 10)) (a.extractLsb' 12 10) = some t →
      exec (.pgLookup a) s = .next { s with response := some ⟨.ok,
        (t &&& 0xFFFFF000#32) ||| (a &&& 0x00000FFF#32), ((p &&& 7#32) <<< 8) ||| (t &&& 7#32)⟩ })

/-- R26: the block finds table t by its number, never by the address field of `dir[t]`: pgLookup answers the same in two
states that agree on the tables and on the low 12 bits of the addressed PDE. -/
def Obligations.LookupIgnoresThePdeAddress : Prop :=
  ∀ (s s' : State) (a p p' : Word), s.pgState ≠ .fatal → s'.pgState ≠ .fatal →
    entRead s .dir (a.extractLsb' 22 10) = some p → entRead s' .dir (a.extractLsb' 22 10) = some p' →
    p.extractLsb' 0 12 = p'.extractLsb' 0 12 → (∀ d i, entRead s (.tbl d) i = entRead s' (.tbl d) i) →
    ∃ resp, exec (.pgLookup a) s = .next { s with response := some resp } ∧
      exec (.pgLookup a) s' = .next { s' with response := some resp }

/-- R133 (D14, D15, D22): pgMake; every slot it writes, and its refusal outside UNINITIALIZED. -/
def Obligations.MakeWritesEverySlot : Prop :=
  ∀ (s : State) (f g : Flags) (mode : InitMode), s.pgState ≠ .fatal →
    (s.pgState ≠ .uninitialized →
      exec (.pgMake f g mode) s = .next { s with response := some ⟨.illegalState, 0, 0⟩ }) ∧
    (s.pgState = .uninitialized →
      ∃ t, exec (.pgMake f g mode) s = .next t ∧ t.response = some ⟨.ok, 0, 0⟩ ∧ t.pgState = .built ∧
        t.loadedBase = s.loadedBase ∧ t.pagingOn = s.pagingOn ∧ t.hwEvents = s.hwEvents ∧ SameOutside s t ∧
        (∀ d, entRead t .dir d =
          some ((s.params.tablePages.getD d.toNat 0 ++ 0#12) ||| 0x18#32 ||| f.setWidth 32)) ∧
        ∀ d i, entRead t (.tbl d) i =
          some ((if mode = .linear then BitVec.ofNat 32 ((d.toNat * 1024 + i.toNat) * 4096) else 0) ||| 0x18#32 |||
            g.setWidth 32))

/-- R134 (D10, D16, D17, D25): pgMap; the refusals in their order, the two slots it writes and every other slot. The UNWRITTEN
clauses are the model's choice, log 14: R158 lets a model take a fault there, and R134 says that they cannot happen. -/
def Obligations.MapRewritesPteAndWidensPde : Prop :=
  ∀ (s : State) (a b : Word) (f : Flags), s.pgState ≠ .fatal →
    (s.pgState = .uninitialized ∨ s.pgState = .enabled →
      exec (.pgMap a b f) s = .next { s with response := some ⟨.illegalState, 0, 0⟩ }) ∧
    (s.pgState = .built ∨ s.pgState = .loaded →
      (entRead s .dir (a.extractLsb' 22 10) = none →
        exec (.pgMap a b f) s = .next { s with response := some ⟨.unwritten, 0, 0⟩ }) ∧
      (∀ p, entRead s .dir (a.extractLsb' 22 10) = some p → p.getLsbD 0 = false →
        exec (.pgMap a b f) s = .next { s with response := some ⟨.nonPresentPageTable, 0, 0⟩ }) ∧
      (∀ p, entRead s .dir (a.extractLsb' 22 10) = some p → p.getLsbD 0 = true →
        (entRead s (.tbl (a.extractLsb' 22 10)) (a.extractLsb' 12 10) = none →
          exec (.pgMap a b f) s = .next { s with response := some ⟨.unwritten, 0, 0⟩ }) ∧
        (∀ w, entRead s (.tbl (a.extractLsb' 22 10)) (a.extractLsb' 12 10) = some w →
          (b.extractLsb' 0 12 ≠ 0#12 →
            exec (.pgMap a b f) s = .next { s with response := some ⟨.alignmentViolation, 0, 0⟩ }) ∧
          (b.extractLsb' 0 12 = 0#12 →
            ∃ t, exec (.pgMap a b f) s = .next t ∧ t.response = some ⟨.ok, 0, 0⟩ ∧
              SameControl s t ∧ SameOutside s t ∧
              ∀ u i, entRead t u i =
                if u = .tbl (a.extractLsb' 22 10) ∧ i = a.extractLsb' 12 10 then
                  some (b ||| (w &&& 0xFF8#32) ||| (f.setWidth 32 &&& 6#32) ||| 1#32)
                else if u = .dir ∧ i = a.extractLsb' 22 10 then some (p ||| (f.setWidth 32 &&& 6#32))
                else entRead s u i))))

/-- R135 (D36): after a pgMap that was answered OK, the PDE is widened and never narrowed. -/
def Obligations.MapOnlyWidensThePde : Prop :=
  ∀ (s t : State) (a b : Word) (f : Flags), exec (.pgMap a b f) s = .next t → t.response = some ⟨.ok, 0, 0⟩ →
    ∃ p p' : Word, entRead s .dir (a.extractLsb' 22 10) = some p ∧ entRead t .dir (a.extractLsb' 22 10) = some p' ∧
      (p'.getLsbD 1 = (p.getLsbD 1 || f.getLsbD 1)) ∧ (p'.getLsbD 2 = (p.getLsbD 2 || f.getLsbD 2)) ∧
      ∀ j, j ≠ 1 → j ≠ 2 → p'.getLsbD j = p.getLsbD j

/-- R136 (D18): pgLoad, whole result and whole frame, and its refusal. -/
def Obligations.LoadHandsTheDirectoryOver : Prop :=
  ∀ s : State,
    (s.pgState = .built ∨ s.pgState = .loaded →
      exec .pgLoad s = .next { s with
        hwEvents := s.hwEvents ++ [.load (s.params.dirPage ++ 0#12)]
        loadedBase := some (s.params.dirPage ++ 0#12)
        pgState := .loaded
        response := some ⟨.ok, 0, 0⟩ }) ∧
    (s.pgState = .uninitialized ∨ s.pgState = .enabled →
      exec .pgLoad s = .next { s with response := some ⟨.illegalState, 0, 0⟩ })

/-- R137 (D19, D24): pgEnable after load, and before load, where it is fatal, produces no response,
and no later command is answered. -/
def Obligations.EnableTurnsPagingOnOrIsFatal : Prop :=
  ∀ s : State,
    (s.pgState = .loaded ∨ s.pgState = .enabled →
      exec .pgEnable s = .next { s with
        hwEvents := s.hwEvents ++ [.enable]
        pagingOn := true
        pgState := .enabled
        response := some ⟨.ok, 0, 0⟩ }) ∧
    (s.pgState = .uninitialized ∨ s.pgState = .built →
      exec .pgEnable s = .next { s with
        hwEvents := s.hwEvents ++ [.enable]
        pagingOn := true
        pgState := .fatal
        response := none } ∧
      ∀ t, exec .pgEnable s = .next t → ∀ i u, exec i t ≠ .next u)

/-- R138 (D20): pgDisable. -/
def Obligations.DisableTurnsPagingOff : Prop :=
  ∀ s : State, s.pgState ≠ .fatal →
    exec .pgDisable s = .next { s with
      hwEvents := s.hwEvents ++ [.disable]
      pagingOn := false
      pgState := if s.pgState = .enabled then .loaded else s.pgState
      response := some ⟨.ok, 0, 0⟩ }

/-- R139 (D21): pgDestroy. -/
def Obligations.DestroyReleasesEverySlot : Prop :=
  ∀ s : State,
    (s.pgState = .enabled → exec .pgDestroy s = .next { s with response := some ⟨.illegalState, 0, 0⟩ }) ∧
    (s.pgState = .uninitialized ∨ s.pgState = .built ∨ s.pgState = .loaded →
      ∃ t, exec .pgDestroy s = .next t ∧ t.response = some ⟨.ok, 0, 0⟩ ∧ t.pgState = .uninitialized ∧
        t.loadedBase = s.loadedBase ∧ t.pagingOn = s.pagingOn ∧ t.hwEvents = s.hwEvents ∧ SameOutside s t ∧
        ∀ u i, entRead t u i = none)

/-- The new `pg_state` of every command in every state but FATAL (the table of R140). -/
def stateAfter (i : Instr) (ps : PgState) : PgState :=
  match i with
  | .pgMake _ _ _ => if ps = .uninitialized then .built else ps
  | .pgLoad => if ps = .built then .loaded else ps
  | .pgEnable => if ps = .uninitialized ∨ ps = .built then .fatal else .enabled
  | .pgDisable => if ps = .enabled then .loaded else ps
  | .pgDestroy => if ps = .enabled then ps else .uninitialized
  | .bfGetBit _ _ | .bfSetBit _ _ | .bfClrBit _ _ | .bfGetRange _ _ _ | .bfSetRange _ _ _ _ | .bfClrRange _ _ _
  | .entMake _ _ _ | .entGetAddress _ _ | .entIsPresent _ _ | .entIsWriteable _ _ | .entCanUserAccess _ _
  | .entWasAccessed _ _ | .entIsDirty _ _ | .entMarkPresent _ _ | .entMarkNotPresent _ _ | .entEnableWriting _ _
  | .entDisableWriting _ _ | .entEnableUserAccess _ _ | .entDisableUserAccess _ _ | .entResetAccessed _ _
  | .ctInit _ _ _ _ _ | .ctPut _ _ _ _ _ | .ctMarkPresent _ _ _ | .ctMarkNotPresent _ _ _ | .ctEnableWriting _ _ _
  | .ctDisableWriting _ _ _ | .ctEnableUserAccess _ _ _ | .ctDisableUserAccess _ _ _ | .ctResetAccessed _ _ _
  | .ctGet _ _ _ | .ctGetAddress _ _ _ | .ctIsPresent _ _ _ | .ctIsWriteable _ _ _ | .ctCanUserAccess _ _ _
  | .ctWasAccessed _ _ _ | .ctIsDirty _ _ _
  | .pgSplit _ | .pgLookup _ | .pgMap _ _ _ => ps

/-- Where a command is answered with ILLEGAL_STATE (the table of R140, R151). -/
def illegalIn (i : Instr) (ps : PgState) : Prop :=
  match i with
  | .pgMake _ _ _ => ps ≠ .uninitialized
  | .pgMap _ _ _ | .pgLoad => ps = .uninitialized ∨ ps = .enabled
  | .pgDestroy => ps = .enabled
  | .bfGetBit _ _ | .bfSetBit _ _ | .bfClrBit _ _ | .bfGetRange _ _ _ | .bfSetRange _ _ _ _ | .bfClrRange _ _ _
  | .entMake _ _ _ | .entGetAddress _ _ | .entIsPresent _ _ | .entIsWriteable _ _ | .entCanUserAccess _ _
  | .entWasAccessed _ _ | .entIsDirty _ _ | .entMarkPresent _ _ | .entMarkNotPresent _ _ | .entEnableWriting _ _
  | .entDisableWriting _ _ | .entEnableUserAccess _ _ | .entDisableUserAccess _ _ | .entResetAccessed _ _
  | .ctInit _ _ _ _ _ | .ctPut _ _ _ _ _ | .ctMarkPresent _ _ _ | .ctMarkNotPresent _ _ _ | .ctEnableWriting _ _ _
  | .ctDisableWriting _ _ _ | .ctEnableUserAccess _ _ _ | .ctDisableUserAccess _ _ _ | .ctResetAccessed _ _ _
  | .ctGet _ _ _ | .ctGetAddress _ _ _ | .ctIsPresent _ _ _ | .ctIsWriteable _ _ _ | .ctCanUserAccess _ _ _
  | .ctWasAccessed _ _ _ | .ctIsDirty _ _ _
  | .pgSplit _ | .pgLookup _ | .pgEnable | .pgDisable => False

/-- R140 (D17 to D22): the state machine, and where it answers ILLEGAL_STATE. -/
def Obligations.StateMachineTable : Prop :=
  ∀ (i : Instr) (s : State), s.pgState ≠ .fatal →
    ∃ t, exec i s = .next t ∧ t.pgState = stateAfter i s.pgState ∧
      (t.response = some ⟨.illegalState, 0, 0⟩ ↔ illegalIn i s.pgState)

/-- R141 item 1, which the spec marks as derived (R58): after pgMake in LINEAR mode with present PDEs, pgLookup gives every
virtual address itself. -/
def Obligations.LinearMakeIsTheIdentityMap : Prop :=
  ∀ (s : State) (f g : Flags), s.pgState = .uninitialized → f.getLsbD 0 = true →
    ∃ t, exec (.pgMake f g .linear) s = .next t ∧
      ∀ v : Word, exec (.pgLookup v) t = .next { t with response := some ⟨.ok, v,
        (f.setWidth 32 <<< 8) ||| g.setWidth 32⟩ }

/-- R141 item 2, which the spec marks as derived: pgLookup after a pgMap that was answered OK. -/
def Obligations.LookupAfterMap : Prop :=
  ∀ (s t : State) (v p : Word) (f : Flags), exec (.pgMap v p f) s = .next t → t.response = some ⟨.ok, 0, 0⟩ →
    ∀ v' : Word, v'.extractLsb' 12 20 = v.extractLsb' 12 20 →
      ∃ r2 : Word, exec (.pgLookup v') t =
          .next { t with response := some ⟨.ok, p.extractLsb' 12 20 ++ v'.extractLsb' 0 12, r2⟩ } ∧
        r2.getLsbD 0 = true ∧ r2.getLsbD 1 = f.getLsbD 1 ∧ r2.getLsbD 2 = f.getLsbD 2 ∧
        (f.getLsbD 1 = true → r2.getLsbD 9 = true) ∧ (f.getLsbD 2 = true → r2.getLsbD 10 = true)

/-! ### Failures and the fatal state -/

/-- R152 (D32, D40): a command answered with a status other than OK changes nothing but the response, whose results are 0. -/
def Obligations.FailureChangesNothing : Prop :=
  ∀ (p : Ports) (s t : State) (resp : Response), commandTurn p s = .next t → t.response = some resp → resp.status ≠ .ok →
    t = { s with response := some ⟨resp.status, 0, 0⟩ }

/-- R177: every command but the fatal pgEnable completes with a response. -/
def Obligations.EveryCommandCompletes : Prop :=
  ∀ (p : Ports) (s : State), s.pgState ≠ .fatal →
    ∃ t, commandTurn p s = .next t ∧
      (t.response ≠ none ∨ (decode p = .ok .pgEnable ∧ t.pgState = .fatal ∧ t.response = none))

/-- R167 (D5): the three codes of the heap are never produced. -/
def Obligations.HeapStatusesAreNeverProduced : Prop :=
  ∀ (p : Ports) (s t : State) (resp : Response), commandTurn p s = .next t → t.response = some resp →
    resp.status ≠ .allocationFailure ∧ resp.status ≠ .corruptedAllocation ∧ resp.status ≠ .outOfMemory

/-- R160 and the spec's U1, in the model's form (log 5): in FATAL every command and every walker step stops, whatever it is. -/
def Obligations.FatalAnswersNothing : Prop :=
  ∀ s : State, s.pgState = .fatal →
    (∀ i : Instr, exec i s = .fault .fatal) ∧ (∀ p : Ports, commandTurn p s = .fault .fatal) ∧
      ∀ draw : WalkerDraw, walkerTurn draw s = .fault .fatal

/-- R160: nothing but reset leaves FATAL. -/
def Obligations.OnlyResetLeavesFatal : Prop :=
  ∀ s t : State, s.pgState = .fatal → step s = .next t →
    ∃ rest, s.inputs = .reset :: rest ∧ t = { State.reset with params := s.params, inputs := rest }

/-- R174, R160: FATAL is entered by pgEnable issued in UNINITIALIZED or BUILT, and by nothing else. -/
def Obligations.FatalIsEnableBeforeLoad : Prop :=
  ∀ s t : State, step s = .next t → t.pgState = .fatal →
    ∃ p rest, s.inputs = .command p :: rest ∧ decode p = .ok .pgEnable ∧
      (s.pgState = .uninitialized ∨ s.pgState = .built)

/-! ### Invariants and frames of the whole machine -/

/-- R30 items 1 to 3, which the spec marks as derived: every step keeps the policy and reserved bits of every written slot. -/
def Obligations.StepKeepsEntryWords : Prop :=
  ∀ s t : State, StorageOk s → step s = .next t → StorageOk t

/-- R30 item 5, which the spec marks as derived: every step keeps "written in BUILT, LOADED and ENABLED". -/
def Obligations.StepKeepsBuiltMeansWritten : Prop :=
  ∀ s t : State, BuiltMeansWritten s → step s = .next t → BuiltMeansWritten t

/-- R141 item 5, which the spec marks as derived: every step keeps what ENABLED and LOADED say of `loaded_base`, `paging_on`
and the events. -/
def Obligations.StepKeepsControl : Prop :=
  ∀ s t : State, ControlOk s → step s = .next t → ControlOk t

/-- The model's own canonical form of the storage (log 8) is kept by every step. -/
def Obligations.StepKeepsCanonicalStorage : Prop :=
  ∀ s t : State, Memory.wf s = true → step s = .next t → Memory.wf t = true

/-- The invariants hold at reset. -/
def Obligations.ResetMeetsTheInvariants : Prop :=
  StorageOk State.reset ∧ BuiltMeansWritten State.reset ∧ ControlOk State.reset ∧ Memory.wf State.reset = true

/-- R30 item 6, which the spec marks as derived: no command sets bit 5 or bit 6 of any slot. -/
def Obligations.NoCommandSetsAccessedOrDirty : Prop :=
  ∀ (p : Ports) (s t : State), commandTurn p s = .next t → ∀ u i w', entRead t u i = some w' →
    ∀ j, j = 5 ∨ j = 6 → w'.getLsbD j = true → ∃ w, entRead s u i = some w ∧ w.getLsbD j = true

/-- R29's column "Written by" for the control state: which commands may change `loaded_base`, `paging_on` and `hw_events`, and
that a command appends at most one event (R27). -/
def Obligations.WhoWritesTheControlState : Prop :=
  ∀ (i : Instr) (s t : State), exec i s = .next t →
    (t.loadedBase ≠ s.loadedBase → i = .pgLoad) ∧
    (t.pagingOn ≠ s.pagingOn → i = .pgEnable ∨ i = .pgDisable) ∧
    (t.hwEvents = s.hwEvents ∨
      (i = .pgLoad ∧ t.hwEvents = s.hwEvents ++ [.load (dirAddr s.params)]) ∨
      (i = .pgEnable ∧ t.hwEvents = s.hwEvents ++ [.enable]) ∨
      (i = .pgDisable ∧ t.hwEvents = s.hwEvents ++ [.disable])) ∧
    (t.pgState ≠ s.pgState → (∃ f g mode, i = .pgMake f g mode) ∨ i = .pgLoad ∨ i = .pgEnable ∨ i = .pgDisable ∨
      i = .pgDestroy)

/-- R29's column "Written by" for the entry storage: a slot of a unit the command does not write reads as before. -/
def Obligations.WhoWritesTheStorage : Prop :=
  ∀ (i : Instr) (s t : State), exec i s = .next t → ∀ u, writesUnit i u = false → ∀ x, entRead t u x = entRead s u x

/-- R7, R8: the parameters are no state: no step changes them (log 3). -/
def Obligations.ParametersNeverChange : Prop :=
  ∀ s t : State, step s = .next t → t.params = s.params

/-! ### The walker -/

/-- R49 (D27), from general knowledge by the spec's own mark: what a walker step writes, and that it changes nothing
else but the response ports, which hold no value after it (R20). -/
def Obligations.WalkerSetsAccessedAndDirty : Prop :=
  ∀ (s : State) (d : Index) (leaf : Option (Index × Bool)) (rest : List Input) (p : Word),
    s.inputs = .walk ⟨d, leaf⟩ :: rest → s.params.walker = true → s.pagingOn = true → s.pgState ≠ .fatal →
    entRead s .dir d = some p → p.getLsbD 0 = true →
    (leaf = none →
      ∃ t, step s = .next t ∧ SameControl s t ∧ t.response = none ∧ t.params = s.params ∧ t.inputs = rest ∧
        ∀ u x, entRead t u x = if u = .dir ∧ x = d then some (p ||| 0x00000020#32) else entRead s u x) ∧
    (∀ i dirty w, leaf = some (i, dirty) → entRead s (.tbl d) i = some w → w.getLsbD 0 = true →
      ∃ t, step s = .next t ∧ SameControl s t ∧ t.response = none ∧ t.params = s.params ∧ t.inputs = rest ∧
        ∀ u x, entRead t u x =
          if u = .dir ∧ x = d then some (p ||| 0x00000020#32)
          else if u = .tbl d ∧ x = i then
            some (if dirty then w ||| 0x00000060#32 else w ||| 0x00000020#32)
          else entRead s u x)

/-- R49: where the walker may take no step, or the entries its draw names are not written and present, nothing happens
(log 6, log 7), and the response ports hold no value (R20). -/
def Obligations.WalkerNeedsPresentEntries : Prop :=
  ∀ (s : State) (d : Index) (leaf : Option (Index × Bool)) (rest : List Input),
    s.inputs = .walk ⟨d, leaf⟩ :: rest → s.pgState ≠ .fatal →
    (s.params.walker = false ∨ s.pagingOn = false ∨ entRead s .dir d = none ∨
      (∃ p, entRead s .dir d = some p ∧ p.getLsbD 0 = false) ∨
      (∃ i dirty, leaf = some (i, dirty) ∧
        (entRead s (.tbl d) i = none ∨ ∃ w, entRead s (.tbl d) i = some w ∧ w.getLsbD 0 = false))) →
    step s = .next { s with inputs := rest, response := none }

/-- R49: "never clears a bit, never writes any bit other than 5 and 6, never writes bit 6 of a directory slot, and never touches
a slot that is unwritten or not present". -/
def Obligations.WalkerTouchesOnlyItsBits : Prop :=
  ∀ (s t : State) (draw : WalkerDraw) (rest : List Input), s.inputs = .walk draw :: rest → step s = .next t →
    ∀ u x, entRead t u x = entRead s u x ∨
      ∃ w w', entRead s u x = some w ∧ w.getLsbD 0 = true ∧ entRead t u x = some w' ∧
        (∀ j, w.getLsbD j = true → w'.getLsbD j = true) ∧ (∀ j, j ≠ 5 → j ≠ 6 → w'.getLsbD j = w.getLsbD j) ∧
        (u = .dir → w'.getLsbD 6 = w.getLsbD 6)

/-! ### Encoding, decoding, reset and the step -/

/-- R66, R69: for every instruction, every operand at every value its ports admit, decoding its encoding gives it back. -/
def Obligations.DecodeOfEncode : Prop :=
  ∀ i : Instr, decode (encode i) = .ok i

/-- R66, R69: a command that decodes is given back by the encoder on `op` and on every port its row reads, and every other port
is written 0. -/
def Obligations.EncodeOfDecode : Prop :=
  ∀ (p : Ports) (i : Instr), decode p = .ok i →
    (encode i).op = p.op ∧ (∀ x ∈ portsRead p.op, (encode i).sameOn p x = true) ∧
      ∀ x, x ∉ portsRead p.op → (encode i).sameOn { op := 0 } x = true

/-- R60 (D4): a port that the opcode's row does not read changes neither the result nor the state. -/
def Obligations.UnreadPortsAreIgnored : Prop :=
  ∀ p q : Ports, p.op = q.op → (∀ x ∈ portsRead p.op, p.sameOn q x = true) →
    decode p = decode q ∧ ∀ s : State, commandTurn p s = commandTurn q s

/-- R67 (D13, D30): exactly these opcodes are illegal and answered with ILLEGAL_OP; so are the dirty accessors with kind = 1. -/
def Obligations.IllegalEncodingsAreAnsweredIllegalOp : Prop :=
  ∀ (p : Ports) (s : State), s.pgState ≠ .fatal →
    ((p.op.toNat = 0x00 ∨ (0x07 ≤ p.op.toNat ∧ p.op.toNat ≤ 0x0F) ∨ p.op.toNat = 0x17 ∨ p.op.toNat = 0x1F ∨
      (0x23 ≤ p.op.toNat ∧ p.op.toNat ≤ 0x30) ∨ p.op.toNat = 0x37 ∨ p.op.toNat = 0x3F ∨ 0x48 ≤ p.op.toNat) ↔
      decode p = .error (.unassigned p.op)) ∧
    (decode p = .error (.unassigned p.op) →
      commandTurn p s = .next { s with response := some ⟨.illegalOp, 0, 0⟩ }) ∧
    ((p.op = 0x16#8 ∨ p.op = 0x36#8) → p.kind = 1#1 →
      commandTurn p s = .next { s with response := some ⟨.illegalOp, 0, 0⟩ })

/-- A few commands of R66, written out port by port, decode to the instruction they stand for. -/
def Obligations.SampleCommandsDecode : Prop :=
  decode { op := 0x05, a := 0x12345678, b := 0xAB, hi := 11, lo := 4 } = .ok (.bfSetRange 0x12345678 0xAB 11 4) ∧
  decode { op := 0x10, kind := 1, a := 0x00500000, f := 3 } = .ok (.entMake .pde 0x00500000 3) ∧
  decode { op := 0x20, kind := 0, tsel := 5, mode := 1, f := 1, b := 0x00400000 } =
    .ok (.ctInit .pte 5 .linear 1 0x00400000) ∧
  decode { op := 0x3E, kind := 1, tsel := 7, a := 2 } = .ok (.ctResetAccessed .pde 7 2) ∧
  decode { op := 0x42, f := 3, g := 1, mode := 0 } = .ok (.pgMake 3 1 .zeroed)

/-- R45, R50, R66: a step takes the next command and executes it whole, and nothing else happens. -/
def Obligations.StepRunsTheDecodedCommand : Prop :=
  ∀ (s : State) (p : Ports) (rest : List Input), s.inputs = .command p :: rest →
    (∀ i, decode p = .ok i → step s = exec i { s with inputs := rest }) ∧
    (∀ e, decode p = .error e → s.pgState ≠ .fatal →
      step s = .next { s with inputs := rest, response := some ⟨.illegalOp, 0, 0⟩ })

/-- With no input waiting no state of the block changes (log 11), and the response ports hold no value (R20). -/
def Obligations.IdleStepChangesNothing : Prop :=
  ∀ s : State, s.inputs = [] → s.pgState ≠ .fatal → step s = .next { s with response := none }

/-- R20: the ports hold no value between commands. No step reads what the step before it left there, and every step that is no
command leaves them without a value (log 2). -/
def Obligations.PortsHoldNoValueBetweenCommands : Prop :=
  ∀ (s : State) (r : Option Response), step { s with response := r } = step s ∧
    ∀ t, step s = .next t → (∀ p rest, s.inputs ≠ .command p :: rest) → t.response = none

/-- R170 (D8): the state after reset. -/
def Obligations.ResetState : Prop :=
  State.reset.pgState = .uninitialized ∧ State.reset.loadedBase = none ∧ State.reset.pagingOn = false ∧
    State.reset.hwEvents = [] ∧ (∀ i, entRead State.reset .dir i = none) ∧
    (∀ t i, entRead State.reset (.tbl t) i = none) ∧ State.reset.response = none

/-- R170: a reset in any state, FATAL included, leaves every piece of the block's state at its reset value and emits no event;
the parameters and the inputs still to come stay (log 10). -/
def Obligations.ResetInputRestoresTheResetState : Prop :=
  ∀ (s : State) (rest : List Input), s.inputs = .reset :: rest →
    ∃ t, step s = .next t ∧ t.pgState = .uninitialized ∧ t.loadedBase = none ∧ t.pagingOn = false ∧ t.hwEvents = [] ∧
      (∀ u i, entRead t u i = none) ∧ t.response = none ∧ t.params = s.params ∧ t.inputs = rest

/-- R47 (D28), from general knowledge by the spec's own mark: the byte view is little-endian at base + 4*i. -/
def Obligations.ByteViewIsLittleEndian : Prop :=
  ∀ (s : State) (u : UnitSel) (i : Index) (w : Word), entRead s u i = some w →
    ∃ b0 b1 b2 b3 : BitVec 8, w = b3 ++ b2 ++ b1 ++ b0 ∧
      byteView s u i 0 = some ((unitBase s.params u).toNat + 4 * i.toNat, b0) ∧
      byteView s u i 1 = some ((unitBase s.params u).toNat + 4 * i.toNat + 1, b1) ∧
      byteView s u i 2 = some ((unitBase s.params u).toNat + 4 * i.toNat + 2, b2) ∧
      byteView s u i 3 = some ((unitBase s.params u).toNat + 4 * i.toNat + 3, b3)
end

