-- ==== Sys2Proof/Laws/State.lean ====
section
/-! SUPPORT. One lemma per field per update of State, so that no later proof unfolds a record update. -/

namespace Sys2Proof.Machine

@[simp] theorem respond_pgState (s : State) (st : Status) (r r2 : Word) : (respond s st r r2).pgState = s.pgState := rfl
@[simp] theorem respond_loadedBase (s : State) (st : Status) (r r2 : Word) : (respond s st r r2).loadedBase = s.loadedBase := rfl
@[simp] theorem respond_pagingOn (s : State) (st : Status) (r r2 : Word) : (respond s st r r2).pagingOn = s.pagingOn := rfl
@[simp] theorem respond_hwEvents (s : State) (st : Status) (r r2 : Word) : (respond s st r r2).hwEvents = s.hwEvents := rfl
@[simp] theorem respond_background (s : State) (st : Status) (r r2 : Word) : (respond s st r r2).background = s.background := rfl
@[simp] theorem respond_dir (s : State) (st : Status) (r r2 : Word) : (respond s st r r2).dir = s.dir := rfl
@[simp] theorem respond_tbl (s : State) (st : Status) (r r2 : Word) : (respond s st r r2).tbl = s.tbl := rfl
@[simp] theorem respond_response (s : State) (st : Status) (r r2 : Word) : (respond s st r r2).response = some ⟨st, r, r2⟩ := rfl
@[simp] theorem respond_params (s : State) (st : Status) (r r2 : Word) : (respond s st r r2).params = s.params := rfl
@[simp] theorem respond_inputs (s : State) (st : Status) (r r2 : Word) : (respond s st r r2).inputs = s.inputs := rfl

@[simp] theorem portsEmpty_pgState (s : State) : (portsEmpty s).pgState = s.pgState := rfl
@[simp] theorem portsEmpty_loadedBase (s : State) : (portsEmpty s).loadedBase = s.loadedBase := rfl
@[simp] theorem portsEmpty_pagingOn (s : State) : (portsEmpty s).pagingOn = s.pagingOn := rfl
@[simp] theorem portsEmpty_hwEvents (s : State) : (portsEmpty s).hwEvents = s.hwEvents := rfl
@[simp] theorem portsEmpty_background (s : State) : (portsEmpty s).background = s.background := rfl
@[simp] theorem portsEmpty_dir (s : State) : (portsEmpty s).dir = s.dir := rfl
@[simp] theorem portsEmpty_tbl (s : State) : (portsEmpty s).tbl = s.tbl := rfl
@[simp] theorem portsEmpty_response (s : State) : (portsEmpty s).response = none := rfl
@[simp] theorem portsEmpty_params (s : State) : (portsEmpty s).params = s.params := rfl
@[simp] theorem portsEmpty_inputs (s : State) : (portsEmpty s).inputs = s.inputs := rfl

@[simp] theorem emit_pgState (s : State) (e : HwEvent) : (emit s e).pgState = s.pgState := rfl
@[simp] theorem emit_loadedBase (s : State) (e : HwEvent) : (emit s e).loadedBase = s.loadedBase := rfl
@[simp] theorem emit_pagingOn (s : State) (e : HwEvent) : (emit s e).pagingOn = s.pagingOn := rfl
@[simp] theorem emit_hwEvents (s : State) (e : HwEvent) : (emit s e).hwEvents = s.hwEvents ++ [e] := rfl
@[simp] theorem emit_background (s : State) (e : HwEvent) : (emit s e).background = s.background := rfl
@[simp] theorem emit_dir (s : State) (e : HwEvent) : (emit s e).dir = s.dir := rfl
@[simp] theorem emit_tbl (s : State) (e : HwEvent) : (emit s e).tbl = s.tbl := rfl
@[simp] theorem emit_response (s : State) (e : HwEvent) : (emit s e).response = s.response := rfl
@[simp] theorem emit_params (s : State) (e : HwEvent) : (emit s e).params = s.params := rfl
@[simp] theorem emit_inputs (s : State) (e : HwEvent) : (emit s e).inputs = s.inputs := rfl

@[simp] theorem entMakeAll_pgState (s : State) (m : MakeArgs) : (entMakeAll s m).pgState = s.pgState := rfl
@[simp] theorem entMakeAll_loadedBase (s : State) (m : MakeArgs) : (entMakeAll s m).loadedBase = s.loadedBase := rfl
@[simp] theorem entMakeAll_pagingOn (s : State) (m : MakeArgs) : (entMakeAll s m).pagingOn = s.pagingOn := rfl
@[simp] theorem entMakeAll_hwEvents (s : State) (m : MakeArgs) : (entMakeAll s m).hwEvents = s.hwEvents := rfl
@[simp] theorem entMakeAll_background (s : State) (m : MakeArgs) : (entMakeAll s m).background = some m := rfl
@[simp] theorem entMakeAll_dir (s : State) (m : MakeArgs) : (entMakeAll s m).dir = [] := rfl
@[simp] theorem entMakeAll_tbl (s : State) (m : MakeArgs) : (entMakeAll s m).tbl = [] := rfl
@[simp] theorem entMakeAll_response (s : State) (m : MakeArgs) : (entMakeAll s m).response = s.response := rfl
@[simp] theorem entMakeAll_params (s : State) (m : MakeArgs) : (entMakeAll s m).params = s.params := rfl
@[simp] theorem entMakeAll_inputs (s : State) (m : MakeArgs) : (entMakeAll s m).inputs = s.inputs := rfl

@[simp] theorem entClearAll_pgState (s : State) : (entClearAll s).pgState = s.pgState := rfl
@[simp] theorem entClearAll_loadedBase (s : State) : (entClearAll s).loadedBase = s.loadedBase := rfl
@[simp] theorem entClearAll_pagingOn (s : State) : (entClearAll s).pagingOn = s.pagingOn := rfl
@[simp] theorem entClearAll_hwEvents (s : State) : (entClearAll s).hwEvents = s.hwEvents := rfl
@[simp] theorem entClearAll_background (s : State) : (entClearAll s).background = none := rfl
@[simp] theorem entClearAll_dir (s : State) : (entClearAll s).dir = [] := rfl
@[simp] theorem entClearAll_tbl (s : State) : (entClearAll s).tbl = [] := rfl
@[simp] theorem entClearAll_response (s : State) : (entClearAll s).response = s.response := rfl
@[simp] theorem entClearAll_params (s : State) : (entClearAll s).params = s.params := rfl
@[simp] theorem entClearAll_inputs (s : State) : (entClearAll s).inputs = s.inputs := rfl

@[simp] theorem withCells_pgState (s : State) (u : UnitSel) (c : Cells) : (withCells s u c).pgState = s.pgState := by cases u <;> rfl
@[simp] theorem withCells_loadedBase (s : State) (u : UnitSel) (c : Cells) : (withCells s u c).loadedBase = s.loadedBase := by cases u <;> rfl
@[simp] theorem withCells_pagingOn (s : State) (u : UnitSel) (c : Cells) : (withCells s u c).pagingOn = s.pagingOn := by cases u <;> rfl
@[simp] theorem withCells_hwEvents (s : State) (u : UnitSel) (c : Cells) : (withCells s u c).hwEvents = s.hwEvents := by cases u <;> rfl
@[simp] theorem withCells_background (s : State) (u : UnitSel) (c : Cells) : (withCells s u c).background = s.background := by cases u <;> rfl
@[simp] theorem withCells_response (s : State) (u : UnitSel) (c : Cells) : (withCells s u c).response = s.response := by cases u <;> rfl
@[simp] theorem withCells_params (s : State) (u : UnitSel) (c : Cells) : (withCells s u c).params = s.params := by cases u <;> rfl
@[simp] theorem withCells_inputs (s : State) (u : UnitSel) (c : Cells) : (withCells s u c).inputs = s.inputs := by cases u <;> rfl
@[simp] theorem withCells_dir_dir (s : State) (c : Cells) : (withCells s .dir c).dir = c := rfl
@[simp] theorem withCells_dir_tbl (s : State) (c : Cells) : (withCells s .dir c).tbl = s.tbl := rfl
@[simp] theorem withCells_tbl_dir (s : State) (t : Index) (c : Cells) : (withCells s (.tbl t) c).dir = s.dir := rfl
@[simp] theorem withCells_tbl_tbl (s : State) (t : Index) (c : Cells) : (withCells s (.tbl t) c).tbl = c := rfl

@[simp] theorem entWrite_pgState (s : State) (u : UnitSel) (i : Index) (w : Word) : (entWrite s u i w).pgState = s.pgState :=
  withCells_pgState ..
@[simp] theorem entWrite_loadedBase (s : State) (u : UnitSel) (i : Index) (w : Word) : (entWrite s u i w).loadedBase = s.loadedBase :=
  withCells_loadedBase ..
@[simp] theorem entWrite_pagingOn (s : State) (u : UnitSel) (i : Index) (w : Word) : (entWrite s u i w).pagingOn = s.pagingOn :=
  withCells_pagingOn ..
@[simp] theorem entWrite_hwEvents (s : State) (u : UnitSel) (i : Index) (w : Word) : (entWrite s u i w).hwEvents = s.hwEvents :=
  withCells_hwEvents ..
@[simp] theorem entWrite_background (s : State) (u : UnitSel) (i : Index) (w : Word) : (entWrite s u i w).background = s.background :=
  withCells_background ..
@[simp] theorem entWrite_response (s : State) (u : UnitSel) (i : Index) (w : Word) : (entWrite s u i w).response = s.response :=
  withCells_response ..
@[simp] theorem entWrite_params (s : State) (u : UnitSel) (i : Index) (w : Word) : (entWrite s u i w).params = s.params :=
  withCells_params ..
@[simp] theorem entWrite_inputs (s : State) (u : UnitSel) (i : Index) (w : Word) : (entWrite s u i w).inputs = s.inputs :=
  withCells_inputs ..

@[simp] theorem entFill_pgState (s : State) (u : UnitSel) (word : Nat → Word) : (entFill s u word).pgState = s.pgState :=
  withCells_pgState ..
@[simp] theorem entFill_loadedBase (s : State) (u : UnitSel) (word : Nat → Word) : (entFill s u word).loadedBase = s.loadedBase :=
  withCells_loadedBase ..
@[simp] theorem entFill_pagingOn (s : State) (u : UnitSel) (word : Nat → Word) : (entFill s u word).pagingOn = s.pagingOn :=
  withCells_pagingOn ..
@[simp] theorem entFill_hwEvents (s : State) (u : UnitSel) (word : Nat → Word) : (entFill s u word).hwEvents = s.hwEvents :=
  withCells_hwEvents ..
@[simp] theorem entFill_background (s : State) (u : UnitSel) (word : Nat → Word) : (entFill s u word).background = s.background :=
  withCells_background ..
@[simp] theorem entFill_response (s : State) (u : UnitSel) (word : Nat → Word) : (entFill s u word).response = s.response :=
  withCells_response ..
@[simp] theorem entFill_params (s : State) (u : UnitSel) (word : Nat → Word) : (entFill s u word).params = s.params :=
  withCells_params ..
@[simp] theorem entFill_inputs (s : State) (u : UnitSel) (word : Nat → Word) : (entFill s u word).inputs = s.inputs :=
  withCells_inputs ..

@[simp] theorem reset_pgState : State.reset.pgState = .uninitialized := rfl
@[simp] theorem reset_loadedBase : State.reset.loadedBase = none := rfl
@[simp] theorem reset_pagingOn : State.reset.pagingOn = false := rfl
@[simp] theorem reset_hwEvents : State.reset.hwEvents = [] := rfl
@[simp] theorem reset_background : State.reset.background = none := rfl
@[simp] theorem reset_dir : State.reset.dir = [] := rfl
@[simp] theorem reset_tbl : State.reset.tbl = [] := rfl
@[simp] theorem reset_response : State.reset.response = none := rfl
@[simp] theorem reset_inputs : State.reset.inputs = [] := rfl
@[simp] theorem reset_params : State.reset.params = Config.params := rfl

end Sys2Proof.Machine
end

