-- ==== Sys2Proof/Laws/Operands.lean ====
section
/-! SUPPORT. The bits of the words the operand functions build (spec/30_encoding.md R62 to R65, spec/41_entry.md R90). -/

namespace Sys2Proof.Machine

theorem entryBitPos_lt (b : EntryBit) : entryBitPos b < 32 := by cases b <;> decide

theorem getLsbD_entryBitMask (b : EntryBit) (j : Nat) : (entryBitMask b).getLsbD j = decide (j = entryBitPos b) := by
  have := entryBitPos_lt b
  simp only [entryBitMask, BitVec.getLsbD_shiftLeft, BitVec.getLsbD_one]
  rw [Bool.eq_iff_iff]
  simp
  omega

/-- Forcing a flag to 1 changes that bit alone. -/
theorem getLsbD_flagSet (b : EntryBit) (w : Word) (j : Nat) :
    (flagSet b w).getLsbD j = (w.getLsbD j || decide (j = entryBitPos b)) := by
  rw [flagSet, BitVec.getLsbD_or, getLsbD_entryBitMask]

/-- Forcing a flag to 0 changes that bit alone. -/
theorem getLsbD_flagClear (b : EntryBit) (w : Word) (j : Nat) :
    (flagClear b w).getLsbD j = (w.getLsbD j && !decide (j = entryBitPos b)) := by
  simp only [flagClear, BitVec.getLsbD_and, BitVec.getLsbD_not, getLsbD_entryBitMask]
  by_cases h : j < 32
  · simp [h]
  · have := BitVec.getLsbD_of_ge w j (by omega)
    simp [this]

theorem aligned_iff (a : Word) : aligned a = true ↔ ∀ j < 12, a.getLsbD j = false := by
  simp only [aligned, beq_iff_eq]
  constructor
  · intro h j hj
    have := congrArg (fun v => v.getLsbD j) h
    simpa [BitVec.getLsbD_extractLsb', hj] using this
  · intro h
    apply BitVec.eq_of_getLsbD_eq
    intro j hj
    simp [hj, h j hj]

/-- The word 0x18 has the two policy bits only. -/
theorem getLsbD_policy (j : Nat) : (0x18#32).getLsbD j = decide (j = 3 ∨ j = 4) := by
  by_cases h : j < 32
  · revert h; revert j; decide
  · rw [BitVec.getLsbD_of_ge _ _ (by omega)]
    simp; omega

/-- R90, bit by bit: the address's own bits, bits 4 and 3 set, the flags at bits 2 to 0. -/
theorem getLsbD_makeEntry (a : Word) (f : Flags) (j : Nat) :
    (makeEntry a f).getLsbD j = (a.getLsbD j || decide (j = 3 ∨ j = 4) || f.getLsbD j) := by
  have hf : (f.setWidth 32).getLsbD j = f.getLsbD j := by
    rw [BitVec.getLsbD_setWidth]
    by_cases h : j < 32
    · simp [h]
    · simp [BitVec.getLsbD_of_ge f j (by omega)]
  simp only [makeEntry, BitVec.getLsbD_or, getLsbD_policy, hf]

theorem aligned_pageAppend (p : Page) : aligned (p ++ 0#12) = true := by
  rw [aligned_iff]
  intro j hj
  rw [BitVec.getLsbD_append, if_pos hj]
  exact BitVec.getLsbD_zero

/-- R7: `DIR_ADDR` and `TABLE_ADDR(d)` are page aligned. -/
@[simp] theorem aligned_dirAddr (p : Params) : aligned (dirAddr p) = true := aligned_pageAppend _

@[simp] theorem aligned_tableAddr (p : Params) (d : Index) : aligned (tableAddr p d) = true := aligned_pageAppend _

theorem aligned_iff_mod (a : Word) : aligned a = true ↔ a.toNat % 4096 = 0 := by
  simp only [aligned, beq_iff_eq]
  rw [← BitVec.toNat_inj]
  simp

/-- LINEAR addresses are page aligned (R110, R133). -/
theorem aligned_ofNat_mul (k : Nat) (b : Word) (hb : aligned b = true) :
    aligned (BitVec.ofNat 32 (k * 4096 + b.toNat)) = true := by
  rw [aligned_iff_mod] at hb ⊢
  rw [BitVec.toNat_ofNat]
  omega

theorem aligned_zero : aligned 0 = true := by decide

/-- The address of an initialized entry is page aligned (R110). -/
theorem initWord_eq (mode : InitMode) (f : Flags) (b : Word) (i : Nat)
    (hb : mode = .linear → aligned b = true) :
    ∃ addr, aligned addr = true ∧ initWord mode f b i = makeEntry addr f := by
  cases mode
  · exact ⟨0, aligned_zero, rfl⟩
  · exact ⟨_, aligned_ofNat_mul i b (hb rfl), rfl⟩

/-- Every word PG_MAKE writes is an entry of a page-aligned address (R133). -/
theorem makeWord_eq (p : Params) (m : MakeArgs) (u : UnitSel) (i : Index) :
    ∃ addr f, aligned addr = true ∧ makeWord p m u i = makeEntry addr f := by
  cases u with
  | dir => exact ⟨_, _, aligned_tableAddr p i, rfl⟩
  | tbl d =>
    cases hm : m.mode with
    | zeroed => exact ⟨0, m.g, aligned_zero, by simp [makeWord, hm]⟩
    | linear =>
      refine ⟨BitVec.ofNat 32 ((d.toNat * 1024 + i.toNat) * 4096), m.g, ?_, by simp only [makeWord, hm]⟩
      have := aligned_ofNat_mul (d.toNat * 1024 + i.toNat) 0 aligned_zero
      simpa using this

/-- The present bit PG_MAKE gives a directory slot is the flag it was given (R133). -/
theorem getLsbD_makeEntry_low (a : Word) (ha : aligned a = true) (f : Flags) (j : Nat) (hj : j < 3) :
    (makeEntry a f).getLsbD j = f.getLsbD j := by
  rw [getLsbD_makeEntry, (aligned_iff a).mp ha j (by omega)]
  have : decide (j = 3 ∨ j = 4) = false := by simp; omega
  simp [this]

/-- R134, bit by bit. -/
theorem getLsbD_remapPte (b : Word) (f : Flags) (t : Word) (j : Nat) :
    (remapPte b f t).getLsbD j =
      if j = 0 then true
      else if j < 3 then f.getLsbD j
      else if j < 12 then t.getLsbD j
      else b.getLsbD j := by
  simp only [remapPte, BitVec.getLsbD_append, BitVec.getLsbD_extractLsb', BitVec.getLsbD_one]
  by_cases h0 : j = 0
  · subst h0; rfl
  · have h1 : ¬ j < 1 := by omega
    simp only [h1, h0, if_false]
    by_cases h3 : j < 3
    · have : j - 1 < 2 := by omega
      simp [h3, this, show 1 + (j - 1) = j by omega]
    · have h3' : ¬ j - 1 < 2 := by omega
      simp only [h3, h3', if_false]
      by_cases h12 : j < 12
      · have : j - 1 - 2 < 9 := by omega
        simp [h12, this, show 3 + (j - 1 - 2) = j by omega]
      · have h12' : ¬ j - 1 - 2 < 9 := by omega
        simp only [h12, h12', if_false]
        by_cases h32 : j < 32
        · have : j - 1 - 2 - 9 < 20 := by omega
          simp [this, show 12 + (j - 1 - 2 - 9) = j by omega]
        · have : ¬ j - 1 - 2 - 9 < 20 := by omega
          simp [this, BitVec.getLsbD_of_ge b j (by omega)]

/-- R135, bit by bit: bits 1 and 2 widen, no other bit changes. -/
theorem getLsbD_widenPde (f : Flags) (p : Word) (j : Nat) :
    (widenPde f p).getLsbD j = (p.getLsbD j || (decide (j = 1 ∨ j = 2) && f.getLsbD j)) := by
  simp only [widenPde, BitVec.getLsbD_or, BitVec.getLsbD_setWidth, BitVec.getLsbD_append, BitVec.getLsbD_extractLsb']
  congr 1
  by_cases h0 : j = 0
  · subst h0; simp
  · have h1 : ¬ j < 1 := by omega
    simp only [h1, if_false]
    by_cases h3 : j = 1 ∨ j = 2
    · have : j - 1 < 2 := by omega
      have h32 : j < 32 := by omega
      simp [h3, this, h32, show 1 + (j - 1) = j by omega]
    · have : ¬ j - 1 < 2 := by omega
      simp [h3, this]

/-- R11: `mask(n)` has bits n-1..0 set. -/
theorem getLsbD_mask (n j : Nat) : (BitVec.ofNat 32 (2 ^ n - 1)).getLsbD j = (decide (j < 32) && decide (j < n)) := by
  rw [BitVec.getLsbD_ofNat, Nat.testBit_two_pow_sub_one]

/-- A one-bit result is the bit, zero-extended (R61, R81). -/
theorem bitResult_getLsbD (a : Word) (n : Nat) : bitResult (a.getLsbD n) = (a.extractLsb' n 1).setWidth 32 := by
  apply BitVec.eq_of_getLsbD_eq
  intro j hj
  by_cases h : j = 0
  · subst h
    cases h : a.getLsbD n <;> simp [bitResult, h]
  · cases h' : a.getLsbD n <;> simp [bitResult, BitVec.getLsbD_setWidth, h, BitVec.getLsbD_one]

/-- An accessor's result is the flag's bit, zero-extended (R93 to R97). -/
theorem accessor_bit (b : EntryBit) (w : Word) :
    bitResult (flagOf b w) = (w.extractLsb' (entryBitPos b) 1).setWidth 32 := bitResult_getLsbD ..

end Sys2Proof.Machine
end

