-- ==== Sys2Proof/Laws/Storage.lean ====
section
/-! SUPPORT. What the entry storage does: a read after a write, after an initialization, after PG_MAKE and PG_DESTROY
(spec/20_memory.md R43, R44), and that every storage operation keeps the canonical form. -/

namespace Sys2Proof.Machine

/-! ### Cells: reading after each operation -/

@[simp] theorem cellFind_nil (n : Nat) : cellFind [] n = none := rfl

theorem cellFind_cons (e : Nat × Word) (c : Cells) (n : Nat) :
    cellFind (e :: c) n = if e.1 = n then some e.2 else cellFind c n := rfl

theorem cellFind_cellInsert (n m : Nat) (w : Word) (c : Cells) :
    cellFind (cellInsert n w c) m = if n = m then some w else cellFind c m := by
  induction c with
  | nil => rfl
  | cons e c ih =>
    simp only [cellInsert]
    split
    · rfl
    · split
      · rename_i h
        simp only [cellFind_cons, h]
        split <;> rfl
      · rename_i h
        simp only [cellFind_cons, ih]
        split
        · rename_i h'
          rw [if_neg (by omega)]
        · rfl

theorem cellFind_filter (p : Nat → Bool) (c : Cells) (n : Nat) :
    cellFind (c.filter fun e => p e.1) n = if p n then cellFind c n else none := by
  induction c with
  | nil => simp
  | cons e c ih =>
    simp only [List.filter_cons, cellFind_cons]
    split <;> rename_i h
    · simp only [cellFind_cons, ih]
      split <;> rename_i h' <;> simp_all
    · rw [ih]
      split
      · split <;> rename_i h' <;> simp_all
      · rfl

theorem cellFind_append (c d : Cells) (n : Nat) :
    cellFind (c ++ d) n = (cellFind c n).or (cellFind d n) := by
  induction c with
  | nil => simp
  | cons e c ih =>
    simp only [List.cons_append, cellFind_cons, ih]
    split <;> simp

theorem cellFind_cellErase (n m : Nat) (c : Cells) :
    cellFind (cellErase n c) m = if n = m then none else cellFind c m := by
  have h := cellFind_filter (fun k => k != n) c m
  simp only [cellErase, h]
  by_cases hm : n = m
  · simp [hm]
  · simp [hm, Ne.symm hm]

/-- Listed, or else as unlisted: after `cellWrite` the slot reads w, every other number as before. -/
theorem cellFind_cellWrite (u : Option Word) (n m : Nat) (w : Word) (c : Cells) :
    cellFind (cellWrite u n w c) m =
      if n = m then (if u = some w then none else some w) else cellFind c m := by
  unfold cellWrite
  split
  · rw [cellFind_cellErase]
  · rw [cellFind_cellInsert]

theorem cellFind_filterMap_range (f : Nat → Option Word) (lo k n : Nat) :
    cellFind ((List.range k).filterMap fun i => (f i).map fun w => (lo + i, w)) n =
      if lo ≤ n ∧ n < lo + k then f (n - lo) else none := by
  induction k with
  | zero => rw [if_neg (by omega)]; rfl
  | succ k ih =>
    rw [List.range_succ, List.filterMap_append, cellFind_append, ih]
    cases hf : f k with
    | none =>
      have : cellFind (List.filterMap (fun i => (f i).map fun w => (lo + i, w)) [k]) n = none := by
        simp [hf]
      rw [this, Option.or_none]
      split
      · rw [if_pos (by omega)]
      · split
        · have : n - lo = k := by omega
          rw [this, hf]
        · rfl
    | some w =>
      have : cellFind (List.filterMap (fun i => (f i).map fun w => (lo + i, w)) [k]) n
          = if lo + k = n then some w else none := by
        simp [hf, cellFind_cons]
      rw [this]
      split
      · rw [if_neg (by omega), if_pos (by omega), Option.or_none]
      · rw [Option.none_or]
        split
        · rw [if_pos (by omega), show n - lo = k by omega, hf]
        · rw [if_neg (by omega)]

/-- After `cellFill` the numbers lo .. lo+1023 read as filled, every other number as before. -/
theorem cellFind_cellFill (u : Nat → Option Word) (lo n : Nat) (word : Nat → Word) (c : Cells) :
    cellFind (cellFill u lo word c) n =
      if lo ≤ n ∧ n < lo + Config.entries then
        (if u (n - lo) = some (word (n - lo)) then none else some (word (n - lo)))
      else cellFind c n := by
  have hmid := cellFind_filterMap_range
    (fun i => if u i = some (word i) then none else some (word i)) lo Config.entries n
  have hmap : (fun i => (if u i = some (word i) then none else some (word i)).map fun w => (lo + i, w)) =
      fun i => if u i = some (word i) then none else some (lo + i, word i) := by
    funext i; split <;> rfl
  rw [hmap] at hmid
  have hlo := cellFind_filter (fun k => decide (k < lo)) c n
  have hhi := cellFind_filter (fun k => decide (lo + Config.entries ≤ k)) c n
  simp only [cellFill, cellFind_append, hmid, hlo, hhi, decide_eq_true_eq]
  by_cases h1 : lo ≤ n ∧ n < lo + Config.entries
  · simp only [h1, and_self, if_true, show ¬ n < lo by omega, show ¬ lo + Config.entries ≤ n by omega, if_false,
      Option.none_or, Option.or_none]
  · by_cases h2 : n < lo
    · rw [if_pos h2, if_neg h1, if_neg (show ¬ lo + Config.entries ≤ n by omega), if_neg h1]
      simp
    · rw [if_neg h2, if_neg h1, if_pos (show lo + Config.entries ≤ n by omega), if_neg h1]
      simp

/-! ### Slot numbers -/

theorem slotNumber_dir (i : Index) : slotNumber .dir i = i.toNat := rfl

theorem slotNumber_tbl (t i : Index) : slotNumber (.tbl t) i = t.toNat * 1024 + i.toNat := rfl

@[simp] theorem slotNumber_dir_zero : slotNumber .dir 0#10 = 0 := rfl

@[simp] theorem slotNumber_tbl_zero (t : Index) : slotNumber (.tbl t) 0#10 = t.toNat * 1024 := by
  rw [slotNumber_tbl, BitVec.toNat_zero, Nat.add_zero]

theorem slotNumber_tbl_inj {t t' i i' : Index} (h : slotNumber (.tbl t) i = slotNumber (.tbl t') i') : t = t' ∧ i = i' := by
  simp only [slotNumber_tbl] at h
  have := i.isLt; have := i'.isLt
  constructor <;> (apply BitVec.eq_of_toNat_eq; omega)

theorem ofNat_toNat_index (i : Index) : BitVec.ofNat 10 i.toNat = i := by simp

theorem dirUnlisted_slotNumber (s : State) (i : Index) : dirUnlisted s (slotNumber .dir i) = unlistedAs s .dir i := by
  simp [dirUnlisted, slotNumber_dir]

theorem tblUnlisted_slotNumber (s : State) (t i : Index) :
    tblUnlisted s (slotNumber (.tbl t) i) = unlistedAs s (.tbl t) i := by
  have := i.isLt
  simp only [tblUnlisted, slotNumber_tbl, Config.entries]
  rw [show (t.toNat * 1024 + i.toNat) / 1024 = t.toNat by omega,
    show (t.toNat * 1024 + i.toNat) % 1024 = i.toNat by omega]
  simp

/-! ### Reading a slot after each storage operation -/

/-- `entRead` looks at the cells, the background and the parameters only. -/
theorem entRead_congr {s t : State} (hb : t.background = s.background) (hd : t.dir = s.dir) (ht : t.tbl = s.tbl)
    (hp : t.params = s.params) (u : UnitSel) (i : Index) : entRead t u i = entRead s u i := by
  cases u <;> simp [entRead, unitCells, unlistedAs, hb, hd, ht, hp]

@[simp] theorem entRead_respond (s : State) (st : Status) (r r2 : Word) (u : UnitSel) (i : Index) :
    entRead (respond s st r r2) u i = entRead s u i := entRead_congr rfl rfl rfl rfl u i

@[simp] theorem entRead_portsEmpty (s : State) (u : UnitSel) (i : Index) : entRead (portsEmpty s) u i = entRead s u i :=
  entRead_congr rfl rfl rfl rfl u i

@[simp] theorem entRead_emit (s : State) (e : HwEvent) (u : UnitSel) (i : Index) :
    entRead (emit s e) u i = entRead s u i := entRead_congr rfl rfl rfl rfl u i

@[simp] theorem unlistedAs_withCells (s : State) (v : UnitSel) (c : Cells) (u : UnitSel) (i : Index) :
    unlistedAs (withCells s v c) u i = unlistedAs s u i := by
  cases v <;> rfl

theorem entRead_entWrite_same (s : State) (u : UnitSel) (i : Index) (w : Word) :
    entRead (entWrite s u i w) u i = some w := by
  have h : unitCells (entWrite s u i w) u = cellWrite (unlistedAs s u i) (slotNumber u i) w (unitCells s u) := by
    cases u <;> rfl
  unfold entRead
  rw [h, cellFind_cellWrite, if_pos rfl, entWrite, unlistedAs_withCells]
  by_cases hu : unlistedAs s u i = some w <;> simp [hu]

theorem entRead_entWrite_other (s : State) (u : UnitSel) (i : Index) (w : Word) (u' : UnitSel) (i' : Index)
    (hne : ¬(u' = u ∧ i' = i)) : entRead (entWrite s u i w) u' i' = entRead s u' i' := by
  simp only [entRead, entWrite, unlistedAs_withCells]
  suffices h : cellFind (unitCells (withCells s u (cellWrite (unlistedAs s u i) (slotNumber u i) w (unitCells s u))) u')
      (slotNumber u' i') = cellFind (unitCells s u') (slotNumber u' i') by rw [h]
  cases u <;> cases u'
  · simp only [unitCells, withCells_dir_dir, cellFind_cellWrite]
    rw [if_neg]
    intro h
    exact hne ⟨rfl, BitVec.eq_of_toNat_eq h.symm⟩
  · rfl
  · rfl
  · simp only [unitCells, withCells_tbl_tbl, cellFind_cellWrite]
    rw [if_neg]
    intro h
    obtain ⟨rfl, rfl⟩ := slotNumber_tbl_inj h
    exact hne ⟨rfl, rfl⟩

/-- R44: the written slot holds the word, no other slot changes. -/
theorem entRead_entWrite (s : State) (u : UnitSel) (i : Index) (w : Word) (u' : UnitSel) (i' : Index) :
    entRead (entWrite s u i w) u' i' = if u' = u ∧ i' = i then some w else entRead s u' i' := by
  split <;> rename_i h
  · obtain ⟨rfl, rfl⟩ := h
    exact entRead_entWrite_same ..
  · exact entRead_entWrite_other _ _ _ _ _ _ h

/-- R110: every slot of the unit holds its word, no slot of another unit changes. -/
theorem entRead_entFill (s : State) (u : UnitSel) (word : Nat → Word) (u' : UnitSel) (i : Index) :
    entRead (entFill s u word) u' i = if u' = u then some (word i.toNat) else entRead s u' i := by
  have hi := i.isLt
  simp only [entRead, entFill, unlistedAs_withCells]
  cases u <;> cases u'
  · simp only [unitCells, withCells_dir_dir, cellFind_cellFill, slotNumber_dir_zero, if_true]
    rw [slotNumber_dir]
    rw [if_pos (by simp only [Config.entries]; omega), Nat.sub_zero, ofNat_toNat_index]
    by_cases hu : unlistedAs s .dir i = some (word i.toNat) <;> simp [hu]
  · rfl
  · rfl
  · rename_i t t'
    simp only [unitCells, withCells_tbl_tbl, cellFind_cellFill, slotNumber_tbl_zero, Config.entries, UnitSel.tbl.injEq]
    rw [slotNumber_tbl]
    by_cases ht : t' = t
    · subst ht
      rw [if_pos (by omega), if_pos rfl, show t'.toNat * 1024 + i.toNat - t'.toNat * 1024 = i.toNat by omega,
        ofNat_toNat_index]
      by_cases hu : unlistedAs s (.tbl t') i = some (word i.toNat) <;> simp [hu]
    · have : t'.toNat ≠ t.toNat := fun h => ht (BitVec.eq_of_toNat_eq h)
      rw [if_neg (by omega), if_neg ht]

/-- R133: after PG_MAKE every slot holds the word PG_MAKE gives it. -/
@[simp] theorem entRead_entMakeAll (s : State) (m : MakeArgs) (u : UnitSel) (i : Index) :
    entRead (entMakeAll s m) u i = some (makeWord s.params m u i) := by
  cases u <;> rfl

/-- R139: after PG_DESTROY every slot is unwritten. -/
@[simp] theorem entRead_entClearAll (s : State) (u : UnitSel) (i : Index) : entRead (entClearAll s) u i = none := by
  cases u <;> rfl

/-- R170: after reset every slot is unwritten. -/
@[simp] theorem entRead_reset (u : UnitSel) (i : Index) : entRead State.reset u i = none := by
  cases u <;> rfl

/-! ### The canonical form -/

theorem cellsRise_iff (c : Cells) : cellsRise c = true ↔ c.Pairwise fun e e' => e.1 < e'.1 := by
  induction c with
  | nil => simp [cellsRise]
  | cons e c ih =>
    cases c with
    | nil => simp [cellsRise]
    | cons e' c =>
      simp only [cellsRise, Bool.and_eq_true, decide_eq_true_eq, ih, List.pairwise_cons, List.mem_cons,
        forall_eq_or_imp]
      constructor
      · rintro ⟨h, h1, h2⟩
        exact ⟨⟨h, fun a ha => Nat.lt_trans h (h1 a ha)⟩, h1, h2⟩
      · rintro ⟨⟨h, _⟩, h1, h2⟩
        exact ⟨h, h1, h2⟩

/-- The canonical form, said of the list's members. -/
theorem cellsWf_iff (bound : Nat) (u : Nat → Option Word) (c : Cells) :
    cellsWf bound u c = true ↔
      (c.Pairwise fun e e' => e.1 < e'.1) ∧ ∀ e ∈ c, e.1 < bound ∧ u e.1 ≠ some e.2 := by
  simp [cellsWf, cellsRise_iff, List.all_eq_true]

theorem mem_cellInsert {n : Nat} {w : Word} {c : Cells} {e : Nat × Word} (h : e ∈ cellInsert n w c) :
    e = (n, w) ∨ e ∈ c := by
  induction c with
  | nil => simpa [cellInsert] using h
  | cons d c ih =>
    simp only [cellInsert] at h
    split at h
    · simpa using h
    · split at h
      · simp only [List.mem_cons] at h ⊢
        exact h.imp_right Or.inr
      · simp only [List.mem_cons] at h ⊢
        rcases h with h | h
        · exact .inr (.inl h)
        · exact (ih h).imp_right Or.inr

theorem pairwise_cellInsert (n : Nat) (w : Word) {c : Cells} (h : c.Pairwise fun e e' => e.1 < e'.1) :
    (cellInsert n w c).Pairwise fun e e' => e.1 < e'.1 := by
  induction c with
  | nil => simp [cellInsert]
  | cons d c ih =>
    rw [List.pairwise_cons] at h
    obtain ⟨hd, hc⟩ := h
    simp only [cellInsert]
    split <;> rename_i h1
    · simp only [List.pairwise_cons, List.mem_cons, forall_eq_or_imp]
      exact ⟨⟨h1, fun a ha => Nat.lt_trans h1 (hd a ha)⟩, hd, hc⟩
    · split <;> rename_i h2
      · rw [List.pairwise_cons]
        exact ⟨fun a ha => h2 ▸ hd a ha, hc⟩
      · rw [List.pairwise_cons]
        refine ⟨fun a ha => ?_, ih hc⟩
        rcases mem_cellInsert ha with rfl | ha
        · exact Nat.lt_of_le_of_ne (Nat.le_of_not_lt h1) h2
        · exact hd a ha

/-- A write keeps the canonical form. -/
theorem cellsWf_cellWrite {bound : Nat} {u : Nat → Option Word} {c : Cells} (n : Nat) (w : Word) (hn : n < bound)
    (h : cellsWf bound u c = true) : cellsWf bound u (cellWrite (u n) n w c) = true := by
  rw [cellsWf_iff] at h ⊢
  obtain ⟨hp, hm⟩ := h
  unfold cellWrite
  split <;> rename_i hu
  · exact ⟨hp.filter _, fun e he => hm e (List.mem_of_mem_filter he)⟩
  · refine ⟨pairwise_cellInsert n w hp, fun e he => ?_⟩
    rcases mem_cellInsert he with rfl | he
    · exact ⟨hn, hu⟩
    · exact hm e he

/-- An initialization keeps the canonical form. -/
theorem cellsWf_cellFill {bound : Nat} {u : Nat → Option Word} {c : Cells} (lo : Nat) (word : Nat → Word)
    (hlo : lo + Config.entries ≤ bound) (h : cellsWf bound u c = true) :
    cellsWf bound u (cellFill (fun i => u (lo + i)) lo word c) = true := by
  rw [cellsWf_iff] at h ⊢
  obtain ⟨hp, hm⟩ := h
  have hmid : ∀ e ∈ (List.range Config.entries).filterMap
      (fun i => if u (lo + i) = some (word i) then none else some (lo + i, word i)),
      (lo ≤ e.1 ∧ e.1 < lo + Config.entries) ∧ u e.1 ≠ some e.2 := by
    intro e he
    simp only [List.mem_filterMap, List.mem_range] at he
    obtain ⟨i, hi, he⟩ := he
    split at he
    · cases he
    · rename_i hne
      cases he
      exact ⟨⟨Nat.le_add_right .., Nat.add_lt_add_left hi lo⟩, hne⟩
  unfold cellFill
  constructor
  · rw [List.pairwise_append, List.pairwise_append]
    refine ⟨⟨hp.filter _, ?_, ?_⟩, hp.filter _, ?_⟩
    · apply List.Pairwise.filterMap (R := (· < ·)) _ _ List.pairwise_lt_range
      intro i j hij a ha b hb
      split at ha
      · cases ha
      split at hb
      · cases hb
      cases ha; cases hb
      exact Nat.add_lt_add_left hij lo
    · intro a ha b hb
      have h1 : a.1 < lo := by simpa using (List.mem_filter.mp ha).2
      exact Nat.lt_of_lt_of_le h1 (hmid b hb).1.1
    · intro a ha b hb
      have h1 : lo + Config.entries ≤ b.1 := by simpa using (List.mem_filter.mp hb).2
      rcases List.mem_append.mp ha with ha | ha
      · have h2 : a.1 < lo := by simpa using (List.mem_filter.mp ha).2
        omega
      · exact Nat.lt_of_lt_of_le (hmid a ha).1.2 h1
  · intro e he
    rcases List.mem_append.mp he with he | he
    · rcases List.mem_append.mp he with he | he
      · exact hm e (List.mem_of_mem_filter he)
      · exact ⟨Nat.lt_of_lt_of_le (hmid e he).1.2 hlo, (hmid e he).2⟩
    · exact hm e (List.mem_of_mem_filter he)

theorem memory_wf_iff (s : State) :
    Memory.wf s = true ↔ cellsWf Config.entries (dirUnlisted s) s.dir = true ∧
      cellsWf (Config.nTables * Config.entries) (tblUnlisted s) s.tbl = true := by
  simp only [Memory.wf, Bool.and_eq_true]

/-- `Memory.wf` looks at the cells, the background and the parameters only. -/
theorem memory_wf_congr {s t : State} (hb : t.background = s.background) (hd : t.dir = s.dir) (ht : t.tbl = s.tbl)
    (hp : t.params = s.params) : Memory.wf t = Memory.wf s := by
  have h1 : dirUnlisted t = dirUnlisted s := by funext n; simp [dirUnlisted, unlistedAs, hb, hp]
  have h2 : tblUnlisted t = tblUnlisted s := by funext n; simp [tblUnlisted, unlistedAs, hb, hp]
  simp [Memory.wf, h1, h2, hd, ht]

theorem entWrite_wf {s : State} (u : UnitSel) (i : Index) (w : Word) (h : Memory.wf s = true) :
    Memory.wf (entWrite s u i w) = true := by
  rw [memory_wf_iff] at h ⊢
  have h1 : dirUnlisted (entWrite s u i w) = dirUnlisted s := by funext n; simp [dirUnlisted, entWrite]
  have h2 : tblUnlisted (entWrite s u i w) = tblUnlisted s := by funext n; simp [tblUnlisted, entWrite]
  rw [h1, h2]
  have := i.isLt
  cases u with
  | dir =>
    refine ⟨?_, h.2⟩
    have := cellsWf_cellWrite (slotNumber .dir i) w (by rw [slotNumber_dir, Config.entries]; omega) h.1
    rwa [dirUnlisted_slotNumber] at this
  | tbl t =>
    have := t.isLt
    refine ⟨h.1, ?_⟩
    have := cellsWf_cellWrite (slotNumber (.tbl t) i) w (by rw [slotNumber_tbl, Config.nTables, Config.entries]; omega) h.2
    rwa [tblUnlisted_slotNumber] at this

theorem cellFill_congr {u u' : Nat → Option Word} (lo : Nat) (word : Nat → Word) (c : Cells)
    (h : ∀ i, i < Config.entries → u i = u' i) : cellFill u lo word c = cellFill u' lo word c := by
  have : ∀ i ∈ List.range Config.entries,
      (if u i = some (word i) then none else some (lo + i, word i)) =
        if u' i = some (word i) then none else some (lo + i, word i) := by
    intro i hi
    rw [h i (List.mem_range.mp hi)]
  simp only [cellFill, List.filterMap_congr this]

theorem entFill_wf {s : State} (u : UnitSel) (word : Nat → Word) (h : Memory.wf s = true) :
    Memory.wf (entFill s u word) = true := by
  rw [memory_wf_iff] at h ⊢
  have h1 : dirUnlisted (entFill s u word) = dirUnlisted s := by funext n; simp [dirUnlisted, entFill]
  have h2 : tblUnlisted (entFill s u word) = tblUnlisted s := by funext n; simp [tblUnlisted, entFill]
  rw [h1, h2]
  cases u with
  | dir =>
    refine ⟨?_, h.2⟩
    have := cellsWf_cellFill 0 word (by simp [Config.entries]) h.1
    simp only [Nat.zero_add] at this
    exact this
  | tbl t =>
    have ht := t.isLt
    refine ⟨h.1, ?_⟩
    have := cellsWf_cellFill (slotNumber (.tbl t) 0#10) word (by rw [slotNumber_tbl_zero, Config.nTables, Config.entries]; omega) h.2
    rwa [cellFill_congr (u' := fun i => unlistedAs s (.tbl t) (BitVec.ofNat 10 i))] at this
    intro i hi
    simp only [Config.entries] at hi
    simp only [tblUnlisted, slotNumber_tbl_zero, Config.entries]
    rw [show (t.toNat * 1024 + i) / 1024 = t.toNat by omega, show (t.toNat * 1024 + i) % 1024 = i by omega]
    simp

theorem entMakeAll_wf (s : State) (m : MakeArgs) : Memory.wf (entMakeAll s m) = true := rfl

theorem entClearAll_wf (s : State) : Memory.wf (entClearAll s) = true := rfl

@[simp] theorem respond_wf (s : State) (st : Status) (r r2 : Word) : Memory.wf (respond s st r r2) = Memory.wf s :=
  memory_wf_congr rfl rfl rfl rfl

@[simp] theorem portsEmpty_wf (s : State) : Memory.wf (portsEmpty s) = Memory.wf s := memory_wf_congr rfl rfl rfl rfl

end Sys2Proof.Machine
end

