-- ==== Sys2Proof/Laws/Exec.lean ====
section
/-! SUPPORT. What the shared operations answer, and once for all commands what a command that answers a next state has done
(`exec_effect`): later proofs cite it instead of unfolding the meanings. -/

namespace Sys2Proof.Machine

/-! ### The shared operations -/

@[simp] theorem unlessFatal_of_ne {s : State} (h : s.pgState ≠ .fatal) (x : Result) : unlessFatal s x = x := by
  unfold unlessFatal
  split <;> simp_all

theorem unlessFatal_of_eq {s : State} (h : s.pgState = .fatal) (x : Result) : unlessFatal s x = .fault .fatal := by
  simp [unlessFatal, h]

/-- R160: a next state means that the state was not FATAL. -/
theorem unlessFatal_next {s t : State} {x : Result} (h : unlessFatal s x = .next t) : s.pgState ≠ .fatal ∧ x = .next t := by
  by_cases hf : s.pgState = .fatal
  · rw [unlessFatal_of_eq hf] at h
    cases h
  · rw [unlessFatal_of_ne hf] at h
    exact ⟨hf, h⟩

theorem ok_next {s t : State} {r r2 : Word} : ok s r r2 = .next t ↔ respond s .ok r r2 = t := by
  simp [ok]

theorem fail_next {s t : State} {st : Status} : fail s st = .next t ↔ respond s st 0 0 = t := by
  simp [fail]

/-- R41: an index below 1024 is the slot index; any other is refused. -/
theorem slotIndex_of_lt {a : Word} (h : a.toNat < 1024) : slotIndex a = some (a.setWidth 10) := if_pos h

theorem slotIndex_of_ge {a : Word} (h : 1024 ≤ a.toNat) : slotIndex a = none := if_neg (Nat.not_lt.mpr h)

/-- The prologue of R113, where it does not fail. -/
theorem withSlot_of_entry {u : UnitSel} {a : Word} {s : State} {w : Word} (answer : Index → Word → Result)
    (ha : a.toNat < 1024) (hw : entRead s u (a.setWidth 10) = some w) :
    withSlot u a s answer = answer (a.setWidth 10) w := by
  simp [withSlot, withIndex, withEntry, slotIndex_of_lt ha, hw]

theorem withSlot_of_index {u : UnitSel} {a : Word} {s : State} (answer : Index → Word → Result)
    (ha : 1024 ≤ a.toNat) : withSlot u a s answer = fail s .indexOutOfRange := by
  simp [withSlot, withIndex, slotIndex_of_ge ha]

theorem withSlot_of_unwritten {u : UnitSel} {a : Word} {s : State} (answer : Index → Word → Result)
    (ha : a.toNat < 1024) (hw : entRead s u (a.setWidth 10) = none) :
    withSlot u a s answer = fail s .unwritten := by
  simp [withSlot, withIndex, withEntry, slotIndex_of_lt ha, hw]

/-! ### What a command has done -/

/-- What a command that answers a next state has done: answered only, or written, or moved the control state. -/
inductive CommandEffect (s : State) : Instr → State → Prop
  /-- It answered; nothing else changed. A refusal answers 0 on both result ports (R152). -/
  | answered (i : Instr) (st : Status) (r r2 : Word) (h0 : st ≠ .ok → r = 0 ∧ r2 = 0) : CommandEffect s i (respond s st r r2)
  /-- A stored mutator set a flag of a slot (R120, R122, R124). -/
  | flagSet (i : Instr) (u : UnitSel) (x : Index) (w : Word) (b : EntryBit) (hi : isPaging i = false)
      (hu : writesUnit i u = true)
      (hw : entRead s u x = some w) (hb : b = .present ∨ b = .writable ∨ b = .userAccessible) :
      CommandEffect s i (respond (entWrite s u x (flagSet b w)) .ok 0 0)
  /-- A stored mutator cleared a flag of a slot (R121, R123, R125, R126). -/
  | flagClear (i : Instr) (u : UnitSel) (x : Index) (w : Word) (b : EntryBit) (hi : isPaging i = false)
      (hu : writesUnit i u = true)
      (hw : entRead s u x = some w) (hb : b = .present ∨ b = .writable ∨ b = .userAccessible ∨ b = .accessed) :
      CommandEffect s i (respond (entWrite s u x (flagClear b w)) .ok 0 0)
  /-- CT_PUT stored a fresh entry (R112). -/
  | put (kind : Kind) (tsel : Index) (a b : Word) (f : Flags) (ha : a.toNat < 1024) (hb : aligned b = true) :
      CommandEffect s (.ctPut kind tsel a b f)
        (respond (entWrite s (selectUnit kind tsel) (a.setWidth 10) (makeEntry b f)) .ok 0 0)
  /-- CT_INIT filled a unit (R110). -/
  | init (kind : Kind) (tsel : Index) (mode : InitMode) (f : Flags) (b : Word) (hb : mode = .linear → aligned b = true) :
      CommandEffect s (.ctInit kind tsel mode f b)
        (respond (entFill s (selectUnit kind tsel) (initWord mode f b)) .ok 0 0)
  /-- PG_MAKE built everything (R133). -/
  | make (f g : Flags) (mode : InitMode) (hs : s.pgState = .uninitialized) :
      CommandEffect s (.pgMake f g mode)
        (respond { entMakeAll s ⟨f, g, mode⟩ with pgState := .built } .ok 0 0)
  /-- PG_MAP rewrote the PTE and widened the PDE (R134). -/
  | map (a b : Word) (f : Flags) (p t : Word) (hs : s.pgState = .built ∨ s.pgState = .loaded)
      (hp : entRead s .dir (directoryOffset a) = some p) (hpres : p.getLsbD 0 = true)
      (ht : entRead s (.tbl (directoryOffset a)) (tableOffset a) = some t) (hb : aligned b = true) :
      CommandEffect s (.pgMap a b f)
        (respond (entWrite (entWrite s (.tbl (directoryOffset a)) (tableOffset a) (remapPte b f t))
          .dir (directoryOffset a) (widenPde f p)) .ok 0 0)
  /-- PG_LOAD handed the directory over (R136). -/
  | load (hs : s.pgState = .built ∨ s.pgState = .loaded) :
      CommandEffect s .pgLoad
        (respond { emit s (.load (dirAddr s.params)) with loadedBase := some (dirAddr s.params), pgState := .loaded } .ok 0 0)
  /-- PG_ENABLE turned paging on (R137). -/
  | enable (hs : s.pgState = .loaded ∨ s.pgState = .enabled) :
      CommandEffect s .pgEnable (respond { emit s .enable with pagingOn := true, pgState := .enabled } .ok 0 0)
  /-- PG_ENABLE before load: FATAL, no response (R137, R160). -/
  | enableFatal (hs : s.pgState = .uninitialized ∨ s.pgState = .built) :
      CommandEffect s .pgEnable { emit s .enable with pagingOn := true, pgState := .fatal, response := none }
  /-- PG_DISABLE turned paging off (R138). -/
  | disable (ps : PgState) (hps : ps = if s.pgState = .enabled then .loaded else s.pgState) :
      CommandEffect s .pgDisable (respond { emit s .disable with pagingOn := false, pgState := ps } .ok 0 0)
  /-- PG_DESTROY released everything (R139). -/
  | destroy (hs : s.pgState ≠ .enabled) :
      CommandEffect s .pgDestroy (respond { entClearAll s with pgState := .uninitialized } .ok 0 0)

/-- A refusal is an answer and nothing else (R152). -/
theorem effect_of_fail {s t : State} {i : Instr} {st : Status} (h : fail s st = .next t) : CommandEffect s i t := by
  rw [fail_next] at h
  subst h
  exact .answered i st 0 0 fun _ => ⟨rfl, rfl⟩

theorem effect_of_ok {s t : State} {i : Instr} {r r2 : Word} (h : ok s r r2 = .next t) : CommandEffect s i t := by
  rw [ok_next] at h
  subst h
  exact .answered i .ok r r2 (by simp)

theorem effect_of_withRange {s t : State} {i : Instr} {hi lo : BitPos} {x : Result}
    (hx : x = .next t → CommandEffect s i t) (h : withRange hi lo s x = .next t) : CommandEffect s i t := by
  unfold withRange at h
  split at h
  · exact effect_of_fail h
  · exact hx h

theorem effect_of_dirtyKind {s t : State} {i : Instr} {kind : Kind} {x : Result}
    (hx : x = .next t → CommandEffect s i t) (h : withDirtyKind kind s x = .next t) : CommandEffect s i t := by
  cases kind
  · exact hx h
  · exact effect_of_fail h

theorem effect_of_withEntry {s t : State} {i : Instr} {u : UnitSel} {x : Index} {k : Word → Result}
    (hk : ∀ w, entRead s u x = some w → k w = .next t → CommandEffect s i t)
    (h : withEntry u x s k = .next t) : CommandEffect s i t := by
  unfold withEntry at h
  split at h
  · exact effect_of_fail h
  · rename_i w hw
    exact hk w hw h

theorem effect_of_withIndex {s t : State} {i : Instr} {a : Word} {k : Index → Result}
    (hk : a.toNat < 1024 → k (a.setWidth 10) = .next t → CommandEffect s i t)
    (h : withIndex a s k = .next t) : CommandEffect s i t := by
  by_cases ha : a.toNat < 1024
  · exact hk ha (by simpa [withIndex, slotIndex_of_lt ha] using h)
  · rw [withIndex, slotIndex_of_ge (Nat.not_lt.mp ha)] at h
    exact effect_of_fail h

theorem effect_of_storedAccessor {s t : State} {i : Instr} {g : Word → Word} {u : UnitSel} {a : Word}
    (h : storedAccessor g u a s = .next t) : CommandEffect s i t :=
  effect_of_withIndex (fun _ h => effect_of_withEntry (fun _ _ h => effect_of_ok h) h) h

theorem effect_of_storedSet {s t : State} {i : Instr} {b : EntryBit} {u : UnitSel} {a : Word} (hi : isPaging i = false)
    (hu : writesUnit i u = true)
    (hb : b = .present ∨ b = .writable ∨ b = .userAccessible)
    (h : storedMutator (flagSet b) u a s = .next t) : CommandEffect s i t :=
  effect_of_withIndex (fun _ h => effect_of_withEntry (fun w hw h => ok_next.mp h ▸ .flagSet i u _ w b hi hu hw hb) h) h

theorem effect_of_storedClear {s t : State} {i : Instr} {b : EntryBit} {u : UnitSel} {a : Word} (hi : isPaging i = false)
    (hu : writesUnit i u = true)
    (hb : b = .present ∨ b = .writable ∨ b = .userAccessible ∨ b = .accessed)
    (h : storedMutator (flagClear b) u a s = .next t) : CommandEffect s i t :=
  effect_of_withIndex (fun _ h => effect_of_withEntry (fun w hw h => ok_next.mp h ▸ .flagClear i u _ w b hi hu hw hb) h) h

theorem effect_of_ctInit {s t : State} (kind : Kind) (tsel : Index) (mode : InitMode) (f : Flags) (b : Word)
    (h : exec (.ctInit kind tsel mode f b) s = .next t) : CommandEffect s (.ctInit kind tsel mode f b) t := by
  obtain ⟨-, h⟩ := unlessFatal_next h
  cases mode
  · exact ok_next.mp h ▸ .init kind tsel .zeroed f b (by simp)
  · simp only at h
    split at h
    · exact effect_of_fail h
    · rename_i hb
      split at h
      · exact effect_of_fail h
      · exact ok_next.mp h ▸ .init kind tsel .linear f b fun _ => by simpa using hb

theorem effect_of_ctPut {s t : State} (kind : Kind) (tsel : Index) (a b : Word) (f : Flags)
    (h : exec (.ctPut kind tsel a b f) s = .next t) : CommandEffect s (.ctPut kind tsel a b f) t := by
  obtain ⟨-, h⟩ := unlessFatal_next h
  refine effect_of_withIndex (fun ha h => ?_) h
  split at h <;> rename_i hb
  · exact ok_next.mp h ▸ .put kind tsel a b f ha hb
  · exact effect_of_fail h

/-- The unit the ports name, in the model's function and in the claims' (R42). -/
theorem selectUnit_eq_namedUnit (kind : Kind) (tsel : Index) : selectUnit kind tsel = namedUnit kind tsel := by
  cases kind <;> rfl

theorem writesUnit_selectUnit (kind : Kind) (tsel : Index) : (selectUnit kind tsel == namedUnit kind tsel) = true := by
  simp [selectUnit_eq_namedUnit]

/-- A command legal in some states only. -/
theorem effect_of_withState {s t : State} {i : Instr} {legal : PgState → Bool} {x : Result}
    (hx : legal s.pgState = true → x = .next t → CommandEffect s i t) (h : withState legal s x = .next t) :
    CommandEffect s i t := by
  unfold withState at h
  split at h <;> rename_i hl
  · exact hx hl h
  · exact effect_of_fail h

theorem builtOrLoaded_iff {p : PgState} : builtOrLoaded p = true ↔ p = .built ∨ p = .loaded := by
  cases p <;> simp [builtOrLoaded]

theorem effect_of_withLookup {s t : State} {i : Instr} {v : Word} {k : Word → Word → Result}
    (hk : ∀ p w, entRead s .dir (directoryOffset v) = some p → p.getLsbD 0 = true →
      entRead s (.tbl (directoryOffset v)) (tableOffset v) = some w → k p w = .next t → CommandEffect s i t)
    (h : withLookup v s k = .next t) : CommandEffect s i t := by
  refine effect_of_withEntry (fun p hp h => ?_) h
  split at h <;> rename_i hpres
  · exact effect_of_withEntry (fun w hw h => hk p w hp hpres hw h) h
  · exact effect_of_fail h

theorem effect_of_pgMap {s t : State} (a b : Word) (f : Flags) (h : exec (.pgMap a b f) s = .next t) :
    CommandEffect s (.pgMap a b f) t := by
  obtain ⟨-, h⟩ := unlessFatal_next h
  refine effect_of_withState (fun hl h => effect_of_withLookup (fun p w hp hpres hw h => ?_) h) h
  split at h <;> rename_i hb
  · exact ok_next.mp h ▸ .map a b f p w (builtOrLoaded_iff.mp hl) hp hpres hw hb
  · exact effect_of_fail h

theorem effect_of_pgEnable {s t : State} (h : exec .pgEnable s = .next t) : CommandEffect s .pgEnable t := by
  obtain ⟨hf, h⟩ := unlessFatal_next h
  split at h <;> rename_i hs
  · exact ok_next.mp h ▸ .enable (.inl hs)
  · exact ok_next.mp h ▸ .enable (.inr hs)
  · cases h
    exact .enableFatal (.inl hs)
  · cases h
    exact .enableFatal (.inr hs)
  · exact absurd hs hf

theorem effect_of_pgDisable {s t : State} (h : exec .pgDisable s = .next t) : CommandEffect s .pgDisable t := by
  obtain ⟨hf, h⟩ := unlessFatal_next h
  rw [ok_next] at h
  subst h
  refine .disable _ ?_
  cases s.pgState <;> rfl

/-- What a command that answers a next state has done. -/
theorem exec_effect {i : Instr} {s t : State} (h : exec i s = .next t) : CommandEffect s i t := by
  have hx := fun {x : Result} (h : unlessFatal s x = .next t) => (unlessFatal_next h).2
  cases i with
  | bfGetBit a lo => exact effect_of_ok (hx h)
  | bfSetBit a lo => exact effect_of_ok (hx h)
  | bfClrBit a lo => exact effect_of_ok (hx h)
  | bfGetRange a hi lo => exact effect_of_withRange effect_of_ok (hx h)
  | bfSetRange a b hi lo =>
    refine effect_of_withRange (fun h => ?_) (hx h)
    split at h
    · exact effect_of_fail h
    · exact effect_of_ok h
  | bfClrRange a hi lo => exact effect_of_withRange effect_of_ok (hx h)
  | entMake kind a f =>
    have h := hx h
    split at h
    · exact effect_of_ok h
    · exact effect_of_fail h
  | entGetAddress kind a => exact effect_of_ok (hx h)
  | entIsPresent kind a => exact effect_of_ok (hx h)
  | entIsWriteable kind a => exact effect_of_ok (hx h)
  | entCanUserAccess kind a => exact effect_of_ok (hx h)
  | entWasAccessed kind a => exact effect_of_ok (hx h)
  | entIsDirty kind a => exact effect_of_dirtyKind effect_of_ok (hx h)
  | entMarkPresent kind a => exact effect_of_ok (hx h)
  | entMarkNotPresent kind a => exact effect_of_ok (hx h)
  | entEnableWriting kind a => exact effect_of_ok (hx h)
  | entDisableWriting kind a => exact effect_of_ok (hx h)
  | entEnableUserAccess kind a => exact effect_of_ok (hx h)
  | entDisableUserAccess kind a => exact effect_of_ok (hx h)
  | entResetAccessed kind a => exact effect_of_ok (hx h)
  | ctInit kind tsel mode f b => exact effect_of_ctInit kind tsel mode f b h
  | ctGet kind tsel a => exact effect_of_storedAccessor (hx h)
  | ctPut kind tsel a b f => exact effect_of_ctPut kind tsel a b f h
  | ctGetAddress kind tsel a => exact effect_of_storedAccessor (hx h)
  | ctIsPresent kind tsel a => exact effect_of_storedAccessor (hx h)
  | ctIsWriteable kind tsel a => exact effect_of_storedAccessor (hx h)
  | ctCanUserAccess kind tsel a => exact effect_of_storedAccessor (hx h)
  | ctWasAccessed kind tsel a => exact effect_of_storedAccessor (hx h)
  | ctIsDirty kind tsel a => exact effect_of_dirtyKind effect_of_storedAccessor (hx h)
  | ctMarkPresent kind tsel a => exact effect_of_storedSet rfl (writesUnit_selectUnit kind tsel) (by simp) (hx h)
  | ctMarkNotPresent kind tsel a => exact effect_of_storedClear rfl (writesUnit_selectUnit kind tsel) (by simp) (hx h)
  | ctEnableWriting kind tsel a => exact effect_of_storedSet rfl (writesUnit_selectUnit kind tsel) (by simp) (hx h)
  | ctDisableWriting kind tsel a => exact effect_of_storedClear rfl (writesUnit_selectUnit kind tsel) (by simp) (hx h)
  | ctEnableUserAccess kind tsel a => exact effect_of_storedSet rfl (writesUnit_selectUnit kind tsel) (by simp) (hx h)
  | ctDisableUserAccess kind tsel a => exact effect_of_storedClear rfl (writesUnit_selectUnit kind tsel) (by simp) (hx h)
  | ctResetAccessed kind tsel a => exact effect_of_storedClear rfl (writesUnit_selectUnit kind tsel) (by simp) (hx h)
  | pgSplit a => exact effect_of_ok (hx h)
  | pgLookup a => exact effect_of_withLookup (fun _ _ _ _ _ h => effect_of_ok h) (hx h)
  | pgMake f g mode =>
    exact effect_of_withState (fun hl h => ok_next.mp h ▸ .make f g mode (by simpa using hl)) (hx h)
  | pgMap a b f => exact effect_of_pgMap a b f h
  | pgLoad => exact effect_of_withState (fun hl h => ok_next.mp h ▸ .load (builtOrLoaded_iff.mp hl)) (hx h)
  | pgEnable => exact effect_of_pgEnable h
  | pgDisable => exact effect_of_pgDisable h
  | pgDestroy => exact effect_of_withState (fun hl h => ok_next.mp h ▸ .destroy (by simpa using hl)) (hx h)

/-- A command that answers a next state was not issued in FATAL (R160). -/
theorem exec_notFatal {i : Instr} {s t : State} (h : exec i s = .next t) : s.pgState ≠ .fatal := by
  cases i <;> exact (unlessFatal_next h).1

/-- Every command but the fatal PG_ENABLE answers, and never with a status of the heap; only a paging command answers
ILLEGAL_STATE (R151, R167, R177). -/
theorem exec_answers (i : Instr) {s : State} (hf : s.pgState ≠ .fatal) :
    ∃ t, exec i s = .next t ∧ ((t.response = none ∧ i = .pgEnable ∧ t.pgState = .fatal) ∨
      ∃ resp, t.response = some resp ∧ resp.status ≠ .allocationFailure ∧ resp.status ≠ .corruptedAllocation ∧
        resp.status ≠ .outOfMemory ∧ (isPaging i = false → resp.status ≠ .illegalState)) := by
  cases i <;>
    simp only [exec, execBfGetBit, execBfSetBit, execBfClrBit, execBfGetRange, execBfSetRange, execBfClrRange, execEntMake,
      execEntGetAddress, execEntIsPresent, execEntIsWriteable, execEntCanUserAccess, execEntWasAccessed, execEntIsDirty,
      execEntMarkPresent, execEntMarkNotPresent, execEntEnableWriting, execEntDisableWriting, execEntEnableUserAccess,
      execEntDisableUserAccess, execEntResetAccessed, execCtInit, execCtGet, execCtPut, execCtGetAddress, execCtIsPresent,
      execCtIsWriteable, execCtCanUserAccess, execCtWasAccessed, execCtIsDirty, execCtMarkPresent, execCtMarkNotPresent,
      execCtEnableWriting, execCtDisableWriting, execCtEnableUserAccess, execCtDisableUserAccess, execCtResetAccessed,
      execPgSplit, execPgLookup, execPgMake, execPgMap, execPgLoad, execPgEnable, execPgDisable, execPgDestroy,
      unlessFatal_of_ne hf, pureForm, withRange, withDirtyKind, storedAccessor, storedMutator, withSlot, withIndex,
      withEntry, withState, withLookup] <;>
    (repeat' split) <;>
    first
    | exact ⟨_, rfl, .inr ⟨_, rfl, by simp, by simp, by simp, by simp [isPaging]⟩⟩
    | exact ⟨_, rfl, .inl ⟨rfl, trivial, rfl⟩⟩

/-- What `entryWordOk` says of each bit (R30 items 1 to 3). -/
theorem entryWordOk_iff (u : UnitSel) (w : Word) :
    entryWordOk u w = true ↔ w.getLsbD 4 = true ∧ w.getLsbD 3 = true ∧
      (∀ j, 7 ≤ j → j < 12 → w.getLsbD j = false) ∧ (u = .dir → w.getLsbD 6 = false) := by
  have h75 : (w.extractLsb' 7 5 == 0#5) = true ↔ ∀ j, 7 ≤ j → j < 12 → w.getLsbD j = false := by
    rw [beq_iff_eq]
    constructor
    · intro h j h1 h2
      have := congrArg (fun x => x.getLsbD (j - 7)) h
      simpa [BitVec.getLsbD_extractLsb', show j - 7 < 5 by omega, show 7 + (j - 7) = j by omega] using this
    · intro h
      apply BitVec.eq_of_getLsbD_eq
      intro j hj
      rw [BitVec.getLsbD_extractLsb', h (7 + j) (by omega) (by omega)]
      simp
  unfold entryWordOk
  rw [Bool.and_eq_true, Bool.and_eq_true, Bool.and_eq_true, h75]
  cases u <;> simp [and_assoc]

end Sys2Proof.Machine
end

