-- ==== Sys2Proof/Laws/PerInstr.lean ====
section
/-! SUPPORT. Per-instruction families (LAWS.json). OpcodeAssigned: the opcode an instruction is encoded with is one of the
44 of spec/30_encoding.md R66, and never 0x00, which is unassigned on purpose (R67). -/

namespace Sys2Proof.Laws.OpcodeAssigned

/-- The statement of the family, about the instruction as syntax. -/
def Statement (i : Instr) : Prop := (encode i).op ∈ assignedOpcodes ∧ (encode i).op ≠ 0x00#8

theorem bfGetBit (a : Word) (lo : BitPos) : Statement (.bfGetBit a lo) := ⟨of_decide_eq_true rfl, of_decide_eq_true rfl⟩

theorem bfSetBit (a : Word) (lo : BitPos) : Statement (.bfSetBit a lo) := ⟨of_decide_eq_true rfl, of_decide_eq_true rfl⟩

theorem bfClrBit (a : Word) (lo : BitPos) : Statement (.bfClrBit a lo) := ⟨of_decide_eq_true rfl, of_decide_eq_true rfl⟩

theorem bfGetRange (a : Word) (hi lo : BitPos) : Statement (.bfGetRange a hi lo) := ⟨of_decide_eq_true rfl, of_decide_eq_true rfl⟩

theorem bfSetRange (a b : Word) (hi lo : BitPos) : Statement (.bfSetRange a b hi lo) := ⟨of_decide_eq_true rfl, of_decide_eq_true rfl⟩

theorem bfClrRange (a : Word) (hi lo : BitPos) : Statement (.bfClrRange a hi lo) := ⟨of_decide_eq_true rfl, of_decide_eq_true rfl⟩

theorem entMake (kind : Kind) (a : Word) (f : Flags) : Statement (.entMake kind a f) := ⟨of_decide_eq_true rfl, of_decide_eq_true rfl⟩

theorem entGetAddress (kind : Kind) (a : Word) : Statement (.entGetAddress kind a) := ⟨of_decide_eq_true rfl, of_decide_eq_true rfl⟩

theorem entIsPresent (kind : Kind) (a : Word) : Statement (.entIsPresent kind a) := ⟨of_decide_eq_true rfl, of_decide_eq_true rfl⟩

theorem entIsWriteable (kind : Kind) (a : Word) : Statement (.entIsWriteable kind a) := ⟨of_decide_eq_true rfl, of_decide_eq_true rfl⟩

theorem entCanUserAccess (kind : Kind) (a : Word) : Statement (.entCanUserAccess kind a) := ⟨of_decide_eq_true rfl, of_decide_eq_true rfl⟩

theorem entWasAccessed (kind : Kind) (a : Word) : Statement (.entWasAccessed kind a) := ⟨of_decide_eq_true rfl, of_decide_eq_true rfl⟩

theorem entIsDirty (kind : Kind) (a : Word) : Statement (.entIsDirty kind a) := ⟨of_decide_eq_true rfl, of_decide_eq_true rfl⟩

theorem entMarkPresent (kind : Kind) (a : Word) : Statement (.entMarkPresent kind a) := ⟨of_decide_eq_true rfl, of_decide_eq_true rfl⟩

theorem entMarkNotPresent (kind : Kind) (a : Word) : Statement (.entMarkNotPresent kind a) := ⟨of_decide_eq_true rfl, of_decide_eq_true rfl⟩

theorem entEnableWriting (kind : Kind) (a : Word) : Statement (.entEnableWriting kind a) := ⟨of_decide_eq_true rfl, of_decide_eq_true rfl⟩

theorem entDisableWriting (kind : Kind) (a : Word) : Statement (.entDisableWriting kind a) := ⟨of_decide_eq_true rfl, of_decide_eq_true rfl⟩

theorem entEnableUserAccess (kind : Kind) (a : Word) : Statement (.entEnableUserAccess kind a) := ⟨of_decide_eq_true rfl, of_decide_eq_true rfl⟩

theorem entDisableUserAccess (kind : Kind) (a : Word) : Statement (.entDisableUserAccess kind a) := ⟨of_decide_eq_true rfl, of_decide_eq_true rfl⟩

theorem entResetAccessed (kind : Kind) (a : Word) : Statement (.entResetAccessed kind a) := ⟨of_decide_eq_true rfl, of_decide_eq_true rfl⟩

theorem ctInit (kind : Kind) (tsel : Index) (mode : InitMode) (f : Flags) (b : Word) : Statement (.ctInit kind tsel mode f b) := ⟨of_decide_eq_true rfl, of_decide_eq_true rfl⟩

theorem ctGet (kind : Kind) (tsel : Index) (a : Word) : Statement (.ctGet kind tsel a) := ⟨of_decide_eq_true rfl, of_decide_eq_true rfl⟩

theorem ctPut (kind : Kind) (tsel : Index) (a b : Word) (f : Flags) : Statement (.ctPut kind tsel a b f) := ⟨of_decide_eq_true rfl, of_decide_eq_true rfl⟩

theorem ctGetAddress (kind : Kind) (tsel : Index) (a : Word) : Statement (.ctGetAddress kind tsel a) := ⟨of_decide_eq_true rfl, of_decide_eq_true rfl⟩

theorem ctIsPresent (kind : Kind) (tsel : Index) (a : Word) : Statement (.ctIsPresent kind tsel a) := ⟨of_decide_eq_true rfl, of_decide_eq_true rfl⟩

theorem ctIsWriteable (kind : Kind) (tsel : Index) (a : Word) : Statement (.ctIsWriteable kind tsel a) := ⟨of_decide_eq_true rfl, of_decide_eq_true rfl⟩

theorem ctCanUserAccess (kind : Kind) (tsel : Index) (a : Word) : Statement (.ctCanUserAccess kind tsel a) := ⟨of_decide_eq_true rfl, of_decide_eq_true rfl⟩

theorem ctWasAccessed (kind : Kind) (tsel : Index) (a : Word) : Statement (.ctWasAccessed kind tsel a) := ⟨of_decide_eq_true rfl, of_decide_eq_true rfl⟩

theorem ctIsDirty (kind : Kind) (tsel : Index) (a : Word) : Statement (.ctIsDirty kind tsel a) := ⟨of_decide_eq_true rfl, of_decide_eq_true rfl⟩

theorem ctMarkPresent (kind : Kind) (tsel : Index) (a : Word) : Statement (.ctMarkPresent kind tsel a) := ⟨of_decide_eq_true rfl, of_decide_eq_true rfl⟩

theorem ctMarkNotPresent (kind : Kind) (tsel : Index) (a : Word) : Statement (.ctMarkNotPresent kind tsel a) := ⟨of_decide_eq_true rfl, of_decide_eq_true rfl⟩

theorem ctEnableWriting (kind : Kind) (tsel : Index) (a : Word) : Statement (.ctEnableWriting kind tsel a) := ⟨of_decide_eq_true rfl, of_decide_eq_true rfl⟩

theorem ctDisableWriting (kind : Kind) (tsel : Index) (a : Word) : Statement (.ctDisableWriting kind tsel a) := ⟨of_decide_eq_true rfl, of_decide_eq_true rfl⟩

theorem ctEnableUserAccess (kind : Kind) (tsel : Index) (a : Word) : Statement (.ctEnableUserAccess kind tsel a) := ⟨of_decide_eq_true rfl, of_decide_eq_true rfl⟩

theorem ctDisableUserAccess (kind : Kind) (tsel : Index) (a : Word) : Statement (.ctDisableUserAccess kind tsel a) := ⟨of_decide_eq_true rfl, of_decide_eq_true rfl⟩

theorem ctResetAccessed (kind : Kind) (tsel : Index) (a : Word) : Statement (.ctResetAccessed kind tsel a) := ⟨of_decide_eq_true rfl, of_decide_eq_true rfl⟩

theorem pgSplit (a : Word) : Statement (.pgSplit a) := ⟨of_decide_eq_true rfl, of_decide_eq_true rfl⟩

theorem pgLookup (a : Word) : Statement (.pgLookup a) := ⟨of_decide_eq_true rfl, of_decide_eq_true rfl⟩

theorem pgMake (f g : Flags) (mode : InitMode) : Statement (.pgMake f g mode) := ⟨of_decide_eq_true rfl, of_decide_eq_true rfl⟩

theorem pgMap (a b : Word) (f : Flags) : Statement (.pgMap a b f) := ⟨of_decide_eq_true rfl, of_decide_eq_true rfl⟩

theorem pgLoad : Statement (.pgLoad) := ⟨of_decide_eq_true rfl, of_decide_eq_true rfl⟩

theorem pgEnable : Statement (.pgEnable) := ⟨of_decide_eq_true rfl, of_decide_eq_true rfl⟩

theorem pgDisable : Statement (.pgDisable) := ⟨of_decide_eq_true rfl, of_decide_eq_true rfl⟩

theorem pgDestroy : Statement (.pgDestroy) := ⟨of_decide_eq_true rfl, of_decide_eq_true rfl⟩

end Sys2Proof.Laws.OpcodeAssigned
end

