-- ==== Sys2Proof/Laws/Step.lean ====
section
/-! SUPPORT. What a walker step and a step of the machine can have done, once for all: later proofs cite `walker_effect` and
`step_effect` instead of unfolding (spec/20_memory.md R49, R50). -/

namespace Sys2Proof.Machine

theorem presentEntry_some {s : State} {u : UnitSel} {i : Index} {w : Word} (h : presentEntry s u i = some w) :
    entRead s u i = some w ∧ w.getLsbD 0 = true := by
  unfold presentEntry at h
  split at h
  · cases h
  · rename_i w' hw
    split at h <;> rename_i hp
    · cases h
      exact ⟨hw, hp⟩
    · cases h

theorem presentEntry_of {s : State} {u : UnitSel} {i : Index} {w : Word} (h : entRead s u i = some w)
    (hp : w.getLsbD 0 = true) : presentEntry s u i = some w := by
  have : flagOf .present w = true := hp
  simp [presentEntry, h, this]

/-- What a walker step has done to the block, before its ports are emptied: nothing, the directory slot's accessed bit, or that and a table slot's bits (R49). -/
inductive WalkerEffect (s : State) : State → Prop
  | nothing : WalkerEffect s s
  | dirOnly (d : Index) (p : Word) (hp : entRead s .dir d = some p) (hpres : p.getLsbD 0 = true) :
      WalkerEffect s (entWrite s .dir d (flagSet .accessed p))
  | both (d i : Index) (p t : Word) (dirty : Bool) (hp : entRead s .dir d = some p) (hpres : p.getLsbD 0 = true)
      (ht : entRead s (.tbl d) i = some t) (htpres : t.getLsbD 0 = true) :
      WalkerEffect s (entWrite (entWrite s .dir d (flagSet .accessed p)) (.tbl d) i
        (if dirty then flagSet .dirty (flagSet .accessed t) else flagSet .accessed t))

theorem walker_effect {draw : WalkerDraw} {s t : State} (h : walkerTurn draw s = .next t) :
    s.pgState ≠ .fatal ∧ ∃ t', WalkerEffect s t' ∧ t = portsEmpty t' := by
  obtain ⟨hf, h⟩ := unlessFatal_next h
  refine ⟨hf, ?_⟩
  split at h
  · split at h
    · cases h
      exact ⟨s, .nothing, rfl⟩
    · rename_i s' hw
      cases h
      refine ⟨s', ?_, rfl⟩
      unfold walkerWrites at hw
      split at hw
      · cases hw
      · rename_i p hp
        obtain ⟨hp, hpres⟩ := presentEntry_some hp
        split at hw
        · cases hw
          exact .dirOnly _ p hp hpres
        · rename_i i dirty hl
          split at hw
          · cases hw
          · rename_i w hw'
            obtain ⟨ht, htpres⟩ := presentEntry_some hw'
            cases hw
            exact .both _ i p w dirty hp hpres ht htpres
  · cases h
    exact ⟨s, .nothing, rfl⟩

/-- What a step has done, by the input it took. -/
inductive StepEffect (s : State) : State → Prop
  | idle (hi : s.inputs = []) (hf : s.pgState ≠ .fatal) : StepEffect s (portsEmpty s)
  | reset (rest : List Input) (hi : s.inputs = .reset :: rest) :
      StepEffect s { State.reset with params := s.params, inputs := rest }
  | walk (draw : WalkerDraw) (rest : List Input) (t : State) (hi : s.inputs = .walk draw :: rest)
      (hf : s.pgState ≠ .fatal) (ht : WalkerEffect { s with inputs := rest } t) :
      StepEffect s (portsEmpty t)
  | command (p : Ports) (rest : List Input) (i : Instr) (t : State) (hi : s.inputs = .command p :: rest)
      (hf : s.pgState ≠ .fatal) (hd : decode p = .ok i) (ht : CommandEffect { s with inputs := rest } i t) : StepEffect s t
  | illegal (p : Ports) (rest : List Input) (e : DecodeError) (hi : s.inputs = .command p :: rest)
      (hf : s.pgState ≠ .fatal) (hd : decode p = .error e) :
      StepEffect s (respond { s with inputs := rest } .illegalOp 0 0)

theorem step_effect {s t : State} (h : step s = .next t) : StepEffect s t := by
  unfold step at h
  split at h <;> rename_i hi
  · obtain ⟨hf, h⟩ := unlessFatal_next h
    cases h
    exact .idle hi hf
  · rename_i p rest
    unfold commandTurn at h
    split at h <;> rename_i hd
    · have hf := exec_notFatal h
      exact .command p rest _ t hi hf hd (exec_effect h)
    · obtain ⟨hf, h⟩ := unlessFatal_next h
      rw [fail_next] at h
      subst h
      exact .illegal p rest _ hi hf hd
  · rename_i draw rest
    obtain ⟨hf, t', hw, rfl⟩ := walker_effect h
    exact .walk draw rest t' hi hf hw
  · rename_i rest
    cases h
    exact .reset rest hi

end Sys2Proof.Machine
end

