-- ==== Sys2Proof/Tests/Slice0.lean ====
section
/-! SUPPORT. Small tests, expected values from the spec (spec/30_encoding.md R60, R66, R67; spec/95_test_vectors.md), and for
every statement with hypotheses a concrete state and operands that meet them. -/

namespace Sys2Proof.Tests

open Sys2Proof Sys2Proof.Machine

/-! ### Helpers -/

/-- 95_test_vectors.md section 2: the example configuration, its first four tables. -/
def sampleParams : Params where
  dirPage := 0x003FF
  tablePages := [0x00400, 0x00401, 0x00402, 0x00403]
  walker := true

/-- The state after reset with the example configuration. -/
def fresh : State := { State.reset with params := sampleParams }

/-- BUILT by `PG_MAKE f=0b011, g=0b011, mode=1`. -/
def built : State := { fresh with pgState := .built, background := some ⟨3, 3, .linear⟩ }

/-- LOADED: then `PG_LOAD`. -/
def loaded : State :=
  { built with pgState := .loaded, loadedBase := some 0x003FF000, hwEvents := [.load 0x003FF000] }

/-- ENABLED: then `PG_ENABLE`. -/
def enabled : State :=
  { loaded with pgState := .enabled, pagingOn := true, hwEvents := [.load 0x003FF000, .enable] }

/-- FATAL: `PG_ENABLE` in BUILT. -/
def fatal : State := { built with pgState := .fatal, pagingOn := true, hwEvents := [.enable] }

/-- Two written slots and nothing else: `tbl[0][2]` holds w and `dir[3]` holds p. -/
def twoSlots (w p : Word) : State := { fresh with tbl := [(2, w)], dir := [(3, p)] }

/-- The next state of a result. -/
def nextOf : Result → Option State
  | .next t => some t
  | .fault _ => none
  | .refused _ => none

/-- The response a result holds. -/
def answer (x : Result) : Option Response := (nextOf x).bind (·.response)

/-- A slot after a result. -/
def slotAfter (x : Result) (u : UnitSel) (i : Index) : Option Word := (nextOf x).bind (entRead · u i)

/-- `pg_state`, `loaded_base`, `paging_on` and the events after a result. -/
def controlAfter (x : Result) : Option (PgState × Option Word × Bool × List HwEvent) :=
  (nextOf x).map fun t => (t.pgState, t.loadedBase, t.pagingOn, t.hwEvents)

/-! ### Well-formedness (R67) -/

theorem test_wf_refuses_pde_dirty : Instr.wellFormed (.entIsDirty .pde 0) = false := rfl
theorem test_wf_refuses_stored_pde_dirty : Instr.wellFormed (.ctIsDirty .pde 0 0) = false := rfl
theorem test_wf_accepts_pte_dirty : Instr.wellFormed (.entIsDirty .pte 0) = true := rfl
theorem test_wf_accepts_stored_pte_dirty : Instr.wellFormed (.ctIsDirty .pte 0 0) = true := rfl
theorem test_wf_accepts_map : Instr.wellFormed (.pgMap 0x2000 0x500000 2) = true := rfl

/-! ### Decoding: one command of every row of R66, its port values written out -/

theorem test_decode_bfGetBit :
    decode { op := 0x01, a := 0x12345678, lo := 4 } = .ok (.bfGetBit 0x12345678 4) := rfl
theorem test_decode_bfSetBit :
    decode { op := 0x02, a := 0x00000000, lo := 31 } = .ok (.bfSetBit 0x00000000 31) := rfl
theorem test_decode_bfClrBit :
    decode { op := 0x03, a := 0x12345678, lo := 3 } = .ok (.bfClrBit 0x12345678 3) := rfl
theorem test_decode_bfGetRange :
    decode { op := 0x04, a := 0x12345678, hi := 31, lo := 12 } = .ok (.bfGetRange 0x12345678 31 12) := rfl
theorem test_decode_bfSetRange :
    decode { op := 0x05, a := 0x12345678, b := 0x000000AB, hi := 11, lo := 4 } = .ok (.bfSetRange 0x12345678 0x000000AB 11 4) := rfl
theorem test_decode_bfClrRange :
    decode { op := 0x06, a := 0x12345678, hi := 15, lo := 8 } = .ok (.bfClrRange 0x12345678 15 8) := rfl
theorem test_decode_entMake :
    decode { op := 0x10, kind := 1, a := 0x00403000, f := 0b001 } = .ok (.entMake .pde 0x00403000 0b001) := rfl
theorem test_decode_entGetAddress :
    decode { op := 0x11, kind := 1, a := 0x0050003B } = .ok (.entGetAddress .pde 0x0050003B) := rfl
theorem test_decode_entIsPresent :
    decode { op := 0x12, kind := 0, a := 0x0050003B } = .ok (.entIsPresent .pte 0x0050003B) := rfl
theorem test_decode_entIsWriteable :
    decode { op := 0x13, kind := 1, a := 0x0050003B } = .ok (.entIsWriteable .pde 0x0050003B) := rfl
theorem test_decode_entCanUserAccess :
    decode { op := 0x14, kind := 0, a := 0x0050003B } = .ok (.entCanUserAccess .pte 0x0050003B) := rfl
theorem test_decode_entWasAccessed :
    decode { op := 0x15, kind := 1, a := 0x0050003B } = .ok (.entWasAccessed .pde 0x0050003B) := rfl
theorem test_decode_entIsDirty :
    decode { op := 0x16, kind := 0, a := 0x0050003B } = .ok (.entIsDirty .pte 0x0050003B) := rfl
theorem test_decode_entMarkPresent :
    decode { op := 0x18, kind := 0, a := 0x0050003B } = .ok (.entMarkPresent .pte 0x0050003B) := rfl
theorem test_decode_entMarkNotPresent :
    decode { op := 0x19, kind := 1, a := 0x0050003B } = .ok (.entMarkNotPresent .pde 0x0050003B) := rfl
theorem test_decode_entEnableWriting :
    decode { op := 0x1A, kind := 0, a := 0x0050003B } = .ok (.entEnableWriting .pte 0x0050003B) := rfl
theorem test_decode_entDisableWriting :
    decode { op := 0x1B, kind := 1, a := 0x0050003B } = .ok (.entDisableWriting .pde 0x0050003B) := rfl
theorem test_decode_entEnableUserAccess :
    decode { op := 0x1C, kind := 0, a := 0x0050003B } = .ok (.entEnableUserAccess .pte 0x0050003B) := rfl
theorem test_decode_entDisableUserAccess :
    decode { op := 0x1D, kind := 1, a := 0x0050003B } = .ok (.entDisableUserAccess .pde 0x0050003B) := rfl
theorem test_decode_entResetAccessed :
    decode { op := 0x1E, kind := 0, a := 0x0050003B } = .ok (.entResetAccessed .pte 0x0050003B) := rfl
theorem test_decode_ctInit :
    decode { op := 0x20, kind := 0, tsel := 5, mode := 1, f := 0b001, b := 0x00400000 } = .ok (.ctInit .pte 5 .linear 0b001 0x00400000) := rfl
theorem test_decode_ctGet :
    decode { op := 0x21, kind := 0, tsel := 5, a := 1023 } = .ok (.ctGet .pte 5 1023) := rfl
theorem test_decode_ctPut :
    decode { op := 0x22, kind := 0, tsel := 1023, a := 7, b := 0x00ABC000, f := 0b111 } = .ok (.ctPut .pte 1023 7 0x00ABC000 0b111) := rfl
theorem test_decode_ctGetAddress :
    decode { op := 0x31, kind := 1, tsel := 392, a := 1024 } = .ok (.ctGetAddress .pde 392 1024) := rfl
theorem test_decode_ctIsPresent :
    decode { op := 0x32, kind := 0, tsel := 400, a := 1024 } = .ok (.ctIsPresent .pte 400 1024) := rfl
theorem test_decode_ctIsWriteable :
    decode { op := 0x33, kind := 1, tsel := 408, a := 1024 } = .ok (.ctIsWriteable .pde 408 1024) := rfl
theorem test_decode_ctCanUserAccess :
    decode { op := 0x34, kind := 0, tsel := 416, a := 1024 } = .ok (.ctCanUserAccess .pte 416 1024) := rfl
theorem test_decode_ctWasAccessed :
    decode { op := 0x35, kind := 1, tsel := 424, a := 1024 } = .ok (.ctWasAccessed .pde 424 1024) := rfl
theorem test_decode_ctIsDirty :
    decode { op := 0x36, kind := 0, tsel := 432, a := 1024 } = .ok (.ctIsDirty .pte 432 1024) := rfl
theorem test_decode_ctMarkPresent :
    decode { op := 0x38, kind := 0, tsel := 448, a := 1024 } = .ok (.ctMarkPresent .pte 448 1024) := rfl
theorem test_decode_ctMarkNotPresent :
    decode { op := 0x39, kind := 1, tsel := 456, a := 1024 } = .ok (.ctMarkNotPresent .pde 456 1024) := rfl
theorem test_decode_ctEnableWriting :
    decode { op := 0x3A, kind := 0, tsel := 464, a := 1024 } = .ok (.ctEnableWriting .pte 464 1024) := rfl
theorem test_decode_ctDisableWriting :
    decode { op := 0x3B, kind := 1, tsel := 472, a := 1024 } = .ok (.ctDisableWriting .pde 472 1024) := rfl
theorem test_decode_ctEnableUserAccess :
    decode { op := 0x3C, kind := 0, tsel := 480, a := 1024 } = .ok (.ctEnableUserAccess .pte 480 1024) := rfl
theorem test_decode_ctDisableUserAccess :
    decode { op := 0x3D, kind := 1, tsel := 488, a := 1024 } = .ok (.ctDisableUserAccess .pde 488 1024) := rfl
theorem test_decode_ctResetAccessed :
    decode { op := 0x3E, kind := 0, tsel := 496, a := 1024 } = .ok (.ctResetAccessed .pte 496 1024) := rfl
theorem test_decode_pgSplit :
    decode { op := 0x40, a := 0x12345678 } = .ok (.pgSplit 0x12345678) := rfl
theorem test_decode_pgLookup :
    decode { op := 0x41, a := 0x00C01234 } = .ok (.pgLookup 0x00C01234) := rfl
theorem test_decode_pgMake :
    decode { op := 0x42, f := 0b011, g := 0b001, mode := 1 } = .ok (.pgMake 0b011 0b001 .linear) := rfl
theorem test_decode_pgMap :
    decode { op := 0x43, a := 0x00002000, b := 0x00500000, f := 0b010 } = .ok (.pgMap 0x00002000 0x00500000 0b010) := rfl
theorem test_decode_pgLoad :
    decode { op := 0x44 } = .ok .pgLoad := rfl
theorem test_decode_pgEnable :
    decode { op := 0x45 } = .ok .pgEnable := rfl
theorem test_decode_pgDisable :
    decode { op := 0x46 } = .ok .pgDisable := rfl
theorem test_decode_pgDestroy :
    decode { op := 0x47 } = .ok .pgDestroy := rfl

/-- R67: opcodes at the edges of the unassigned ranges. -/
theorem test_decode_unassigned :
    ([0x00, 0x07, 0x0F, 0x17, 0x1F, 0x23, 0x30, 0x37, 0x3F, 0x48, 0x80, 0xFF] : List (BitVec 8)).all
      (fun op => match decode { op := op } with | .ok _ => false | .error e => e == .unassigned op) = true := rfl

/-- The table numbers only `op`. -/
theorem test_tableWord : decodeTableWord 8 0x44 = some .pgLoad := rfl

theorem test_tableWord_unassigned : decodeTableWord 8 0x48 = none := rfl

/-! ### One step of every command (95_test_vectors.md section 2) -/

theorem test_bfGetBit :
    answer (exec (.bfGetBit 0x80000000 31) fresh) = some ⟨.ok, 0x00000001, 0⟩ := rfl
theorem test_bfSetBit :
    answer (exec (.bfSetBit 0x00000000 31) fresh) = some ⟨.ok, 0x80000000, 0⟩ := rfl
theorem test_bfClrBit :
    answer (exec (.bfClrBit 0xFFFFFFFF 31) fresh) = some ⟨.ok, 0x7FFFFFFF, 0⟩ := rfl
theorem test_bfGetRange :
    answer (exec (.bfGetRange 0x12345678 31 12) fresh) = some ⟨.ok, 0x00012345, 0⟩ := rfl
theorem test_bfGetRange_ill_formed :
    answer (exec (.bfGetRange 0x12345678 3 4) fresh) = some ⟨.invalidArgument, 0, 0⟩ := rfl
theorem test_bfSetRange :
    answer (exec (.bfSetRange 0x12345678 0x000000AB 11 4) fresh) = some ⟨.ok, 0x12345AB8, 0⟩ := rfl
theorem test_bfSetRange_too_wide :
    answer (exec (.bfSetRange 0x12345678 0x00000100 11 4) fresh) = some ⟨.invalidArgument, 0, 0⟩ := rfl
theorem test_bfClrRange :
    answer (exec (.bfClrRange 0xFFFFFFFF 31 0) fresh) = some ⟨.ok, 0, 0⟩ := rfl
theorem test_entMake :
    answer (exec (.entMake .pte 0xFFFFF000 0b111) fresh) = some ⟨.ok, 0xFFFFF01F, 0⟩ := rfl
theorem test_entMake_unaligned :
    answer (exec (.entMake .pte 0x00500800 0b000) fresh) = some ⟨.alignmentViolation, 0, 0⟩ := rfl
theorem test_entGetAddress :
    answer (exec (.entGetAddress .pte 0xFFFFFFFF) fresh) = some ⟨.ok, 0xFFFFF000, 0⟩ := rfl
theorem test_entIsPresent :
    answer (exec (.entIsPresent .pte 0x0050001A) fresh) = some ⟨.ok, 0, 0⟩ := rfl
theorem test_entIsWriteable :
    answer (exec (.entIsWriteable .pte 0x0050001B) fresh) = some ⟨.ok, 1, 0⟩ := rfl
theorem test_entCanUserAccess :
    answer (exec (.entCanUserAccess .pte 0x0050001F) fresh) = some ⟨.ok, 1, 0⟩ := rfl
theorem test_entWasAccessed :
    answer (exec (.entWasAccessed .pte 0x0050003B) fresh) = some ⟨.ok, 1, 0⟩ := rfl
theorem test_entIsDirty :
    answer (exec (.entIsDirty .pte 0x0050007B) fresh) = some ⟨.ok, 1, 0⟩ := rfl
theorem test_entIsDirty_pde :
    answer (exec (.entIsDirty .pde 0x0050007B) fresh) = some ⟨.illegalOp, 0, 0⟩ := rfl
theorem test_entMarkPresent :
    answer (exec (.entMarkPresent .pte 0x00000000) fresh) = some ⟨.ok, 0x00000001, 0⟩ := rfl
theorem test_entMarkNotPresent :
    answer (exec (.entMarkNotPresent .pte 0xFFFFFFFF) fresh) = some ⟨.ok, 0xFFFFFFFE, 0⟩ := rfl
theorem test_entEnableWriting :
    answer (exec (.entEnableWriting .pte 0x00500019) fresh) = some ⟨.ok, 0x0050001B, 0⟩ := rfl
theorem test_entDisableWriting :
    answer (exec (.entDisableWriting .pde 0x0040101F) fresh) = some ⟨.ok, 0x0040101D, 0⟩ := rfl
theorem test_entEnableUserAccess :
    answer (exec (.entEnableUserAccess .pte 0x0050001B) fresh) = some ⟨.ok, 0x0050001F, 0⟩ := rfl
theorem test_entDisableUserAccess :
    answer (exec (.entDisableUserAccess .pte 0x0050001F) fresh) = some ⟨.ok, 0x0050001B, 0⟩ := rfl
theorem test_entResetAccessed :
    answer (exec (.entResetAccessed .pte 0x0050007B) fresh) = some ⟨.ok, 0x0050005B, 0⟩ := rfl
theorem test_ctInit_last :
    slotAfter (exec (.ctInit .pte 8 .linear 0b111 0xFFC00000) fresh) (.tbl 8) 1023 = some 0xFFFFF01F := by decide +kernel
theorem test_ctInit_out_of_range :
    answer (exec (.ctInit .pte 8 .linear 0b000 0xFFC01000) fresh) = some ⟨.addressOutOfRange, 0, 0⟩ := rfl
theorem test_ctGet :
    answer (exec (.ctGet .pte 0 2) (twoSlots 0x0050001B 0x0040301B)) = some ⟨.ok, 0x0050001B, 0⟩ := rfl
theorem test_ctGet_index :
    answer (exec (.ctGet .pte 5 1024) built) = some ⟨.indexOutOfRange, 0, 0⟩ := rfl
theorem test_ctPut :
    slotAfter (exec (.ctPut .pte 0 2 0x00500000 0b011) fresh) (.tbl 0) 2 = some 0x0050001B := rfl
theorem test_ctPut_index_first :
    answer (exec (.ctPut .pte 0 1024 0x00500001 0b011) fresh) = some ⟨.indexOutOfRange, 0, 0⟩ := rfl
theorem test_ctGetAddress :
    answer (exec (.ctGetAddress .pte 0 2) (twoSlots 0x0050007B 0x0040301B)) = some ⟨.ok, 0x00500000, 0⟩ := rfl
theorem test_ctIsPresent :
    answer (exec (.ctIsPresent .pte 0 2) (twoSlots 0x0050001B 0x0040301B)) = some ⟨.ok, 1, 0⟩ := rfl
theorem test_ctIsPresent_unwritten :
    answer (exec (.ctIsPresent .pte 5 0) fresh) = some ⟨.unwritten, 0, 0⟩ := rfl
theorem test_ctIsWriteable :
    answer (exec (.ctIsWriteable .pte 0 2) (twoSlots 0x0050001B 0x0040301B)) = some ⟨.ok, 1, 0⟩ := rfl
theorem test_ctCanUserAccess :
    answer (exec (.ctCanUserAccess .pte 0 2) (twoSlots 0x0050001B 0x0040301B)) = some ⟨.ok, 0, 0⟩ := rfl
theorem test_ctWasAccessed :
    answer (exec (.ctWasAccessed .pte 0 2) (twoSlots 0x0050003B 0x0040301B)) = some ⟨.ok, 1, 0⟩ := rfl
theorem test_ctIsDirty :
    answer (exec (.ctIsDirty .pte 0 2) (twoSlots 0x0050007B 0x0040301B)) = some ⟨.ok, 1, 0⟩ := rfl
theorem test_ctIsDirty_pde :
    answer (exec (.ctIsDirty .pde 0 5000) fresh) = some ⟨.illegalOp, 0, 0⟩ := rfl
theorem test_ctMarkPresent :
    slotAfter (exec (.ctMarkPresent .pte 0 2) (twoSlots 0x0050001A 0)) (.tbl 0) 2 = some 0x0050001B := rfl
theorem test_ctMarkNotPresent :
    slotAfter (exec (.ctMarkNotPresent .pte 0 2) (twoSlots 0x0050007B 0)) (.tbl 0) 2 = some 0x0050007A := rfl
theorem test_ctEnableWriting :
    slotAfter (exec (.ctEnableWriting .pte 0 2) (twoSlots 0x00500019 0)) (.tbl 0) 2 = some 0x0050001B := rfl
theorem test_ctDisableWriting :
    slotAfter (exec (.ctDisableWriting .pde 0 3) (twoSlots 0 0x0040301B)) .dir 3 = some 0x00403019 := rfl
theorem test_ctEnableUserAccess :
    slotAfter (exec (.ctEnableUserAccess .pte 0 2) (twoSlots 0x0050001B 0)) (.tbl 0) 2 = some 0x0050001F := rfl
theorem test_ctDisableUserAccess :
    slotAfter (exec (.ctDisableUserAccess .pte 0 2) (twoSlots 0x0050001F 0)) (.tbl 0) 2 = some 0x0050001B := rfl
theorem test_ctResetAccessed :
    slotAfter (exec (.ctResetAccessed .pte 0 2) (twoSlots 0x0050007B 0)) (.tbl 0) 2 = some 0x0050005B := rfl
theorem test_pgSplit :
    answer (exec (.pgSplit 0x12345678) fresh) = some ⟨.ok, 0x00000048, 0x00000345⟩ := rfl
theorem test_pgLookup :
    answer (exec (.pgLookup 0xFFFFFFFF) built) = some ⟨.ok, 0xFFFFFFFF, 0x00000303⟩ := rfl
theorem test_pgLookup_unwritten :
    answer (exec (.pgLookup 0x00002000) fresh) = some ⟨.unwritten, 0, 0⟩ := rfl
theorem test_pgMake_dir :
    slotAfter (exec (.pgMake 0b011 0b011 .linear) fresh) .dir 3 = some 0x0040301B := rfl
theorem test_pgMake_tbl :
    slotAfter (exec (.pgMake 0b011 0b011 .linear) fresh) (.tbl 1023) 1023 = some 0xFFFFF01B := rfl
theorem test_pgMap_pte :
    slotAfter (exec (.pgMap 0x00002FFF 0x00600000 0b110) built) (.tbl 0) 2 = some 0x0060001F := rfl
theorem test_pgMap_pde :
    slotAfter (exec (.pgMap 0x00002FFF 0x00600000 0b110) built) .dir 0 = some 0x0040001F := rfl
theorem test_pgLoad :
    controlAfter (exec .pgLoad built) = some (.loaded, some 0x003FF000, false, [.load 0x003FF000]) := rfl
theorem test_pgLoad_enabled :
    answer (exec (.pgLoad) enabled) = some ⟨.illegalState, 0, 0⟩ := rfl
theorem test_pgEnable :
    controlAfter (exec .pgEnable loaded) = some (.enabled, some 0x003FF000, true, [.load 0x003FF000, .enable]) := rfl
theorem test_pgEnable_fatal :
    controlAfter (exec .pgEnable built) = some (.fatal, none, true, [.enable]) := rfl
theorem test_pgDisable :
    controlAfter (exec .pgDisable enabled) = some (.loaded, some 0x003FF000, false, [.load 0x003FF000, .enable, .disable]) := rfl
theorem test_pgDestroy :
    slotAfter (exec .pgDestroy loaded) .dir 0 = none := rfl
theorem test_pgDestroy_enabled :
    answer (exec (.pgDestroy) enabled) = some ⟨.illegalState, 0, 0⟩ := rfl

/-! ### The walker and FATAL -/

/-- Program P8, step 5: accessed and dirty set on `tbl[0][2]`. -/
theorem test_walker : slotAfter (walkerTurn ⟨0, some (2, true)⟩ enabled) (.tbl 0) 2 = some 0x0000207B := rfl

/-- R20: the ports hold no value after a step that is no command, whatever the step before left there. -/
theorem test_walker_ports :
    answer (step { respond enabled .ok 1 0 with inputs := [.walk ⟨0, none⟩] }) = none := rfl

theorem test_idle_ports : (nextOf (step (respond enabled .ok 1 0))).isSome = true ∧ answer (step (respond enabled .ok 1 0)) = none :=
  ⟨rfl, rfl⟩

/-- Program P5, step 4: no response in FATAL. -/
theorem test_fatal : answer (exec (.ctGet .pde 0 0) fatal) = none := rfl

/-! ### Witnesses: states and operands that meet the hypotheses of the statements -/

/-- Two states that are not FATAL. -/
theorem witness_SingleBitUtilitiesAnswer : fresh.pgState ≠ .fatal ∧ enabled.pgState ≠ .fatal := by decide

/-- Ranges: `hi < lo` by one, the one-bit range, the full range. -/
theorem witness_GetRangeAnswers :
    fresh.pgState ≠ .fatal ∧ (3#5).toNat < (4#5).toNat ∧ (4#5).toNat ≤ (4#5).toNat ∧ (0#5).toNat ≤ (31#5).toNat := by decide

/-- A value too wide by one, the widest that fits, and the full range. -/
theorem witness_SetRangeAnswers :
    fresh.pgState ≠ .fatal ∧ (0#5).toNat < (1#5).toNat ∧
      2 ^ ((31#5).toNat - (31#5).toNat + 1) ≤ (2#32).toNat ∧ (1#32).toNat < 2 ^ ((31#5).toNat - (31#5).toNat + 1) ∧
      (0xFFFFFFFF#32).toNat < 2 ^ ((31#5).toNat - (0#5).toNat + 1) := by decide

theorem witness_ClrRangeAnswers :
    fresh.pgState ≠ .fatal ∧ (5#5).toNat < (6#5).toNat ∧ (0#5).toNat ≤ (31#5).toNat := by decide

theorem witness_RangeLaws :
    fresh.pgState ≠ .fatal ∧ (4#5).toNat ≤ (11#5).toNat ∧ (0xFF#32).toNat < 2 ^ ((11#5).toNat - (4#5).toNat + 1) ∧
      (0x00500000#32).extractLsb' 0 12 = 0#12 := by decide

/-- Unaligned by the lowest and by the highest offset bit; the largest aligned address. -/
theorem witness_EntryIsMadeFieldByField :
    fresh.pgState ≠ .fatal ∧ (0x00500001#32).extractLsb' 0 12 ≠ 0#12 ∧ (0x00500800#32).extractLsb' 0 12 ≠ 0#12 ∧
      (0xFFFFF000#32).extractLsb' 0 12 = 0#12 := by decide

theorem witness_PureAccessorsAnswer : fresh.pgState ≠ .fatal := by decide

theorem witness_PureDirtyAccessorAnswers : fresh.pgState ≠ .fatal := by decide

theorem witness_PureMutatorsAnswer : fresh.pgState ≠ .fatal := by decide

theorem witness_EntryLaws :
    fresh.pgState ≠ .fatal ∧ (.entMarkPresent, 0, true) ∈ pureMutators ∧ (.entResetAccessed, 5, false) ∈ pureMutators ∧
      (0 : Nat) ≠ 5 ∧ (0x00500000#32).extractLsb' 0 12 = 0#12 :=
  ⟨by decide, .head _, by simp [pureMutators], by decide, by decide⟩

/-- Unaligned, the largest base offset LINEAR takes, the next one above it, and ZEROED. -/
theorem witness_InitFillsTheUnit :
    fresh.pgState ≠ .fatal ∧ (0x123#32).extractLsb' 0 12 ≠ 0#12 ∧
      (0xFFC01000#32).extractLsb' 0 12 = 0#12 ∧ 0xFFC00000 < (0xFFC01000#32).toNat ∧
      (0xFFC00000#32).extractLsb' 0 12 = 0#12 ∧ (0xFFC00000#32).toNat ≤ 0xFFC00000 := by decide

/-- Index 1024, an unwritten slot, a written slot, and the last index. -/
theorem witness_GetReadsTheSlot :
    (twoSlots 0x1B 0x19).pgState ≠ .fatal ∧ 1024 ≤ (1024#32).toNat ∧ (1023#32).toNat = (1023#10).toNat ∧
      entRead (twoSlots 0x1B 0x19) (namedUnit .pte 0) 1023 = none ∧ (2#32).toNat = (2#10).toNat ∧
      entRead (twoSlots 0x1B 0x19) (namedUnit .pte 0) 2 = some 0x1B ∧
      entRead (twoSlots 0x1B 0x19) (namedUnit .pde 5) 3 = some 0x19 := by decide

theorem witness_PutStoresAFreshEntry :
    fresh.pgState ≠ .fatal ∧ 1024 ≤ (1024#32).toNat ∧ (1023#32).toNat < 1024 ∧ (1023#32).toNat = (1023#10).toNat ∧
      (0x00500001#32).extractLsb' 0 12 ≠ 0#12 ∧ (0x00500000#32).extractLsb' 0 12 = 0#12 := by decide

theorem witness_StoredAccessorsAnswer :
    (∃ e, e ∈ storedAccessors) ∧ (twoSlots 0x1B 0x19).pgState ≠ .fatal ∧ 1024 ≤ (0xFFFFFFFF#32).toNat ∧
      (3#32).toNat = (3#10).toNat ∧ entRead (twoSlots 0x1B 0x19) (namedUnit .pte 0) 3 = none ∧
      entRead (twoSlots 0x1B 0x19) (namedUnit .pde 0) 3 = some 0x19 :=
  ⟨⟨_, .head _⟩, by decide⟩

theorem witness_StoredDirtyAccessorAnswers :
    (twoSlots 0x5B 0x19).pgState ≠ .fatal ∧ 1024 ≤ (1024#32).toNat ∧ (3#32).toNat = (3#10).toNat ∧
      entRead (twoSlots 0x5B 0x19) (.tbl 0) 3 = none ∧ (2#32).toNat = (2#10).toNat ∧
      entRead (twoSlots 0x5B 0x19) (.tbl 0) 2 = some 0x5B := by decide

theorem witness_StoredMutatorsWriteTheSlot :
    (∃ e, e ∈ storedMutators) ∧ enabled.pgState ≠ .fatal ∧ 1024 ≤ (1024#32).toNat ∧
      (1023#32).toNat = (1023#10).toNat ∧ entRead fresh (namedUnit .pte 1023) 1023 = none ∧
      entRead enabled (namedUnit .pte 1023) 1023 = some 0xFFFFF01B :=
  ⟨⟨_, .head _⟩, by decide⟩

theorem witness_ContainerLaws :
    fresh.pgState ≠ .fatal ∧ (0xFFC00000#32).extractLsb' 0 12 = 0#12 ∧ (0xFFC00000#32).toNat ≤ 0xFFC00000 ∧
      (1023#32).toNat < 1024 := by decide

theorem witness_OtherCommandsKeepTheControlState :
    isPaging (.ctMarkPresent .pte 0 2) = false ∧ isPaging (.bfGetBit 0 0) = false ∧ enabled.pgState ≠ .fatal := by decide

theorem witness_SplitDecomposesTheAddress : fresh.pgState ≠ .fatal := by decide

/-- No directory entry; one that is not present; a present one over an unwritten and over a written table slot. -/
theorem witness_LookupReadsBothLevels :
    fresh.pgState ≠ .fatal ∧ (twoSlots 0 0x1A).pgState ≠ .fatal ∧ (twoSlots 0 0x1B).pgState ≠ .fatal ∧
      built.pgState ≠ .fatal ∧ entRead fresh .dir ((0x00C02000#32).extractLsb' 22 10) = none ∧
      entRead (twoSlots 0 0x1A) .dir ((0x00C02000#32).extractLsb' 22 10) = some 0x1A ∧ (0x1A#32).getLsbD 0 = false ∧
      entRead (twoSlots 0 0x1B) .dir ((0x00C02000#32).extractLsb' 22 10) = some 0x1B ∧ (0x1B#32).getLsbD 0 = true ∧
      entRead (twoSlots 0 0x1B) (.tbl ((0x00C02000#32).extractLsb' 22 10)) ((0x00C02000#32).extractLsb' 12 10) = none ∧
      entRead built (.tbl ((0x00002ABC#32).extractLsb' 22 10)) ((0x00002ABC#32).extractLsb' 12 10) = some 0x0000201B ∧
      entRead built .dir ((0x00002ABC#32).extractLsb' 22 10) = some 0x0040001B := by decide

/-- Two states whose PDEs differ in the address field only. -/
theorem witness_LookupIgnoresThePdeAddress :
    (twoSlots 0x1B 0x0040301B).pgState ≠ .fatal ∧ (twoSlots 0x1B 0x0050301B).pgState ≠ .fatal ∧
      entRead (twoSlots 0x1B 0x0040301B) .dir ((0x00C02000#32).extractLsb' 22 10) = some 0x0040301B ∧
      entRead (twoSlots 0x1B 0x0050301B) .dir ((0x00C02000#32).extractLsb' 22 10) = some 0x0050301B ∧
      (0x0040301B#32).extractLsb' 0 12 = (0x0050301B#32).extractLsb' 0 12 ∧
      ∀ d i, entRead (twoSlots 0x1B 0x0040301B) (.tbl d) i = entRead (twoSlots 0x1B 0x0050301B) (.tbl d) i :=
  ⟨by decide, by decide, by decide, by decide, by decide, fun _ _ => rfl⟩

theorem witness_MakeWritesEverySlot :
    fresh.pgState = .uninitialized ∧ loaded.pgState ≠ .uninitialized ∧ loaded.pgState ≠ .fatal := by decide

/-- The state clauses, the entry clauses and the two alignment clauses. -/
theorem witness_MapRewritesPteAndWidensPde :
    fresh.pgState = .uninitialized ∧ enabled.pgState = .enabled ∧ built.pgState = .built ∧ loaded.pgState = .loaded ∧
      entRead { twoSlots 0 0x1A with pgState := .built } .dir ((0x2000#32).extractLsb' 22 10) = none ∧
      entRead { twoSlots 0 0x1A with pgState := .built } .dir ((0x00C02000#32).extractLsb' 22 10) = some 0x1A ∧
      (0x1A#32).getLsbD 0 = false ∧
      entRead { twoSlots 0 0x1B with pgState := .built } .dir ((0x00C02000#32).extractLsb' 22 10) = some 0x1B ∧
      entRead { twoSlots 0 0x1B with pgState := .built } (.tbl ((0x00C02000#32).extractLsb' 22 10))
        ((0x00C02000#32).extractLsb' 12 10) = none ∧
      entRead built .dir ((0x2000#32).extractLsb' 22 10) = some 0x0040001B ∧ (0x0040001B#32).getLsbD 0 = true ∧
      entRead built (.tbl ((0x2000#32).extractLsb' 22 10)) ((0x2000#32).extractLsb' 12 10) = some 0x0000201B ∧
      (0x00700800#32).extractLsb' 0 12 ≠ 0#12 ∧ (0x00500000#32).extractLsb' 0 12 = 0#12 := by decide

theorem witness_MapOnlyWidensThePde :
    ∃ t, exec (.pgMap 0x2000 0x00500000 2) built = .next t ∧ t.response = some ⟨.ok, 0, 0⟩ := ⟨_, rfl, rfl⟩

theorem witness_LoadHandsTheDirectoryOver :
    built.pgState = .built ∧ loaded.pgState = .loaded ∧ fresh.pgState = .uninitialized ∧ enabled.pgState = .enabled := by decide

theorem witness_EnableTurnsPagingOnOrIsFatal :
    loaded.pgState = .loaded ∧ enabled.pgState = .enabled ∧ fresh.pgState = .uninitialized ∧ built.pgState = .built := by decide

theorem witness_DisableTurnsPagingOff : enabled.pgState ≠ .fatal ∧ enabled.pgState = .enabled := by decide

theorem witness_DestroyReleasesEverySlot :
    enabled.pgState = .enabled ∧ fresh.pgState = .uninitialized ∧ built.pgState = .built ∧ loaded.pgState = .loaded := by decide

theorem witness_StateMachineTable :
    fresh.pgState ≠ .fatal ∧ built.pgState ≠ .fatal ∧ loaded.pgState ≠ .fatal ∧ enabled.pgState ≠ .fatal := by decide

theorem witness_LinearMakeIsTheIdentityMap : fresh.pgState = .uninitialized ∧ (3#3).getLsbD 0 = true := by decide

theorem witness_LookupAfterMap :
    (∃ t, exec (.pgMap 0x2000 0x00500000 6) loaded = .next t ∧ t.response = some ⟨.ok, 0, 0⟩) ∧
      (0x2ABC#32).extractLsb' 12 20 = (0x2000#32).extractLsb' 12 20 := ⟨⟨_, rfl, rfl⟩, by decide⟩

theorem witness_FailureChangesNothing :
    ∃ t resp, commandTurn { op := 0x21, a := 1024 } built = .next t ∧ t.response = some resp ∧ resp.status ≠ .ok :=
  ⟨_, _, rfl, rfl, by decide⟩

theorem witness_EveryCommandCompletes : built.pgState ≠ .fatal ∧ decode { op := 0x45 } = .ok .pgEnable := ⟨by decide, rfl⟩

theorem witness_HeapStatusesAreNeverProduced :
    ∃ t resp, commandTurn { op := 0x42, f := 3, g := 3, mode := 1 } fresh = .next t ∧ t.response = some resp :=
  ⟨_, _, rfl, rfl⟩

theorem witness_FatalAnswersNothing : fatal.pgState = .fatal := rfl

theorem witness_OnlyResetLeavesFatal :
    ∃ t, fatal.pgState = .fatal ∧ step { fatal with inputs := [.reset] } = .next t := ⟨_, rfl, rfl⟩

theorem witness_FatalIsEnableBeforeLoad :
    ∃ t, step { built with inputs := [.command { op := 0x45 }] } = .next t ∧ t.pgState = .fatal := ⟨_, rfl, rfl⟩

/-- A state with a written directory slot that a command rewrites. -/
theorem witness_StepKeepsEntryWords :
    StorageOk { fresh with dir := [(3, 0x0040301B)], inputs := [.command { op := 0x39, kind := 1, a := 3 }] } ∧
      ∃ t, step { fresh with dir := [(3, 0x0040301B)], inputs := [.command { op := 0x39, kind := 1, a := 3 }] } =
        .next t := by
  refine ⟨fun u i w h => ?_, _, rfl⟩
  cases u with
  | dir =>
    by_cases hi : 3 = i.toNat
    · obtain rfl : (0x0040301B#32) = w := by simpa [entRead, unitCells, slotNumber, cellFind, hi] using h
      decide
    · simp [entRead, unitCells, slotNumber, cellFind, hi, unlistedAs, fresh, State.reset] at h
  | tbl t => simp [entRead, unitCells, unlistedAs, fresh, State.reset] at h

theorem witness_StepKeepsBuiltMeansWritten :
    BuiltMeansWritten { built with inputs := [.command { op := 0x44 }] } ∧
      ∃ t, step { built with inputs := [.command { op := 0x44 }] } = .next t :=
  ⟨fun _ u i => by cases u <;> simp [entRead, unitCells, unlistedAs, built, fresh, State.reset], _, rfl⟩

theorem witness_StepKeepsControl :
    ControlOk { enabled with inputs := [.command { op := 0x46 }] } ∧
      ∃ t, step { enabled with inputs := [.command { op := 0x46 }] } = .next t := by
  refine ⟨⟨by decide, fun _ => by decide, fun _ => by decide, fun _ => ⟨[], [], [], rfl, by decide⟩⟩, _, rfl⟩

theorem witness_StepKeepsCanonicalStorage :
    Memory.wf { built with tbl := [(2, 0x0050001B)], inputs := [.command { op := 0x3E, a := 2 }] } = true ∧
      ∃ t, step { built with tbl := [(2, 0x0050001B)], inputs := [.command { op := 0x3E, a := 2 }] } = .next t :=
  ⟨by decide, _, rfl⟩

theorem witness_NoCommandSetsAccessedOrDirty :
    ∃ t, commandTurn { op := 0x3E, a := 2 } (twoSlots 0x7B 0) = .next t ∧ entRead t (.tbl 0) 2 = some 0x5B ∧
      (0x5B#32).getLsbD 6 = true := ⟨_, rfl, by decide, by decide⟩

theorem witness_WhoWritesTheControlState :
    ∃ t, exec .pgLoad built = .next t ∧ t.loadedBase ≠ built.loadedBase ∧ t.hwEvents ≠ built.hwEvents :=
  ⟨_, rfl, by decide, by decide⟩

theorem witness_WhoWritesTheStorage :
    (∃ t, exec (.ctPut .pte 5 2 0x00500000 3) built = .next t) ∧ writesUnit (.ctPut .pte 5 2 0x00500000 3) .dir = false ∧
      writesUnit (.ctPut .pte 5 2 0x00500000 3) (.tbl 4) = false := ⟨⟨_, rfl⟩, by decide, by decide⟩

theorem witness_ParametersNeverChange : ∃ t, step { fatal with inputs := [.reset] } = .next t := ⟨_, rfl⟩

/-- A state whose next input is a walker step. -/
def walking (s : State) (draw : WalkerDraw) : State := { s with inputs := [.walk draw] }

theorem witness_WalkerSetsAccessedAndDirty :
    (walking enabled ⟨0, some (2, true)⟩).inputs = .walk ⟨0, some (2, true)⟩ :: [] ∧
      (walking enabled ⟨0, some (2, true)⟩).params.walker = true ∧
      (walking enabled ⟨0, some (2, true)⟩).pagingOn = true ∧ (walking enabled ⟨0, some (2, true)⟩).pgState ≠ .fatal ∧
      entRead (walking enabled ⟨0, some (2, true)⟩) .dir 0 = some 0x0040001B ∧ (0x0040001B#32).getLsbD 0 = true ∧
      entRead (walking enabled ⟨0, some (2, true)⟩) (.tbl 0) 2 = some 0x0000201B ∧
      (0x0000201B#32).getLsbD 0 = true := by decide

/-- The same without a table slot. -/
theorem witness_WalkerSetsAccessedAndDirty_dir :
    (walking enabled ⟨3, none⟩).inputs = .walk ⟨3, none⟩ :: [] ∧ (walking enabled ⟨3, none⟩).params.walker = true ∧
      (walking enabled ⟨3, none⟩).pagingOn = true ∧ (walking enabled ⟨3, none⟩).pgState ≠ .fatal ∧
      entRead (walking enabled ⟨3, none⟩) .dir 3 = some 0x0040301B ∧ (0x0040301B#32).getLsbD 0 = true := by decide

/-- Paging is off, or the block has no walker. -/
theorem witness_WalkerNeedsPresentEntries_off :
    (walking loaded ⟨0, none⟩).inputs = .walk ⟨0, none⟩ :: [] ∧ (walking loaded ⟨0, none⟩).pgState ≠ .fatal ∧
      (walking loaded ⟨0, none⟩).pagingOn = false ∧
      (walking { enabled with params := { sampleParams with walker := false } } ⟨0, none⟩).params.walker = false := by decide

/-- The directory slot is unwritten, or not present. -/
theorem witness_WalkerNeedsPresentEntries_dir :
    (walking (twoSlots 0 0x1A) ⟨3, none⟩).inputs = .walk ⟨3, none⟩ :: [] ∧
      (walking (twoSlots 0 0x1A) ⟨3, none⟩).pgState ≠ .fatal ∧
      entRead (walking (twoSlots 0 0x1A) ⟨3, none⟩) .dir 3 = some 0x1A ∧ (0x1A#32).getLsbD 0 = false ∧
      entRead (walking (twoSlots 0 0x1A) ⟨4, none⟩) .dir 4 = none := by decide

/-- The table slot is unwritten, or not present. -/
theorem witness_WalkerNeedsPresentEntries :
    (walking (twoSlots 0x1A 0x1B) ⟨0, some (2, false)⟩).inputs = .walk ⟨0, some (2, false)⟩ :: [] ∧
      (walking (twoSlots 0x1A 0x1B) ⟨0, some (2, false)⟩).pgState ≠ .fatal ∧
      entRead (walking (twoSlots 0x1A 0x1B) ⟨0, some (2, false)⟩) (.tbl 0) 2 = some 0x1A ∧ (0x1A#32).getLsbD 0 = false ∧
      entRead (walking (twoSlots 0x1A 0x1B) ⟨3, some (0, false)⟩) (.tbl 3) 0 = none := by decide

theorem witness_WalkerTouchesOnlyItsBits :
    ∃ t, step { enabled with inputs := [.walk ⟨0, some (2, true)⟩] } = .next t := ⟨_, rfl⟩

theorem witness_EncodeOfDecode :
    decode { op := 0x44, a := 7, lo := 3 } = .ok .pgLoad ∧ Port.a ∉ portsRead 0x44#8 ∧ Port.a ∈ portsRead 0x41#8 :=
  ⟨rfl, by decide, by decide⟩

theorem witness_UnreadPortsAreIgnored :
    ({ op := 0x01, a := 5, lo := 2, b := 9, hi := 1 } : Ports).op = ({ op := 0x01, a := 5, lo := 2 } : Ports).op ∧
      ∀ x ∈ portsRead 0x01#8,
        ({ op := 0x01, a := 5, lo := 2, b := 9, hi := 1 } : Ports).sameOn { op := 0x01, a := 5, lo := 2 } x = true := by decide

theorem witness_IllegalEncodingsAreAnsweredIllegalOp :
    fresh.pgState ≠ .fatal ∧ ({ op := 0x16, kind := 1 } : Ports).kind = 1#1 ∧
      (match decode { op := 0x48 } with | .ok _ => false | .error e => e == .unassigned 0x48#8) = true := by decide

theorem witness_StepRunsTheDecodedCommand :
    ({ built with inputs := [.command { op := 0x44 }] } : State).inputs = .command { op := 0x44 } :: [] ∧
      decode { op := 0x44 } = .ok .pgLoad ∧ decode { op := 0x48 } = .error (.unassigned 0x48) ∧ built.pgState ≠ .fatal :=
  ⟨rfl, rfl, rfl, by decide⟩

theorem witness_IdleStepChangesNothing : built.inputs = [] ∧ built.pgState ≠ .fatal := by decide

/-- A walker step after a command that answered. -/
theorem witness_PortsHoldNoValueBetweenCommands :
    (∃ t, step { respond enabled .ok 1 0 with inputs := [.walk ⟨0, none⟩] } = .next t) ∧
      ∀ p rest, ({ respond enabled .ok 1 0 with inputs := [.walk ⟨0, none⟩] } : State).inputs ≠ .command p :: rest :=
  ⟨⟨_, rfl⟩, fun _ _ h => by cases h⟩

theorem witness_ResetInputRestoresTheResetState :
    ({ fatal with inputs := [.reset, .command { op := 0x44 }] } : State).inputs = .reset :: [.command { op := 0x44 }] := rfl

theorem witness_ByteViewIsLittleEndian :
    entRead built (.tbl 0) 2 = some 0x0000201B ∧
      byteView built (.tbl 0) 2 1 = some (0x00400009, 0x20) := by decide

end Sys2Proof.Tests
end

section
/-! PROOF. The parameters of spec/00_scope.md R7 along a step: what a command or a walker step can have done leaves them as
they were (`CommandEffect.params_eq`, `WalkerEffect.params_eq`), and so does every step. -/

namespace Sys2Proof.Machine

/-- No answer and no update of the control state or of the background names the field; the writes of slots keep it by the
laws of `entWrite` and `entFill`. -/
theorem CommandEffect.params_eq {s t : State} {i : Instr} (h : CommandEffect s i t) : t.params = s.params := by
  cases h with
  | answered | make | load | enable | enableFatal | disable | destroy => rfl
  | flagSet | flagClear | put | init | map => simp only [respond_params, entWrite_params, entFill_params]

theorem WalkerEffect.params_eq {s t : State} (h : WalkerEffect s t) : t.params = s.params := by
  cases h with
  | nothing => rfl
  | dirOnly | both => simp only [entWrite_params]

/-- Settles O46, by the input the step takes. The reset is the one step that writes the field, and it writes the old value
back (log 10). -/
theorem parametersNeverChange : Obligations.ParametersNeverChange := by
  intro s t h
  cases step_effect h with
  | idle | reset | illegal => rfl
  | walk _ _ _ _ _ hw => exact hw.params_eq
  | command _ _ _ _ _ _ _ hc => exact hc.params_eq

end Sys2Proof.Machine
end

section
/-! PROOF. What a command can do to one slot of the entry storage, once for all commands (`CommandEffect.slot`): leave it,
rewrite the low bits of its word, store a fresh entry, or release it (spec/10_state.md R29, spec/42_container.md R110 to R126,
spec/43_paging.md R133, R134, R139). The claims about slots are read off from it. -/

namespace Sys2Proof.Machine

/-! ### The words a command writes -/

/-- What a command leaves of bits 11:3 of a word it rewrites: all but the accessed bit stay, and that bit is never set. -/
structure CommandRewrite (w w' : Word) : Prop where
  bits_eq : ∀ j, 3 ≤ j → j < 12 → j ≠ 5 → w'.getLsbD j = w.getLsbD j
  accessed_le : w'.getLsbD 5 = true → w.getLsbD 5 = true

theorem commandRewrite_flagSet (w : Word) {b : EntryBit} (hb : b = .present ∨ b = .writable ∨ b = .userAccessible) :
    CommandRewrite w (flagSet b w) := by
  have hpos : entryBitPos b < 3 := by rcases hb with rfl | rfl | rfl <;> decide
  have hbit : ∀ j, 3 ≤ j → (flagSet b w).getLsbD j = w.getLsbD j := fun j hj => by
    rw [getLsbD_flagSet, decide_eq_false (by omega), Bool.or_false]
  exact ⟨fun j hj _ _ => hbit j hj, fun h => hbit 5 (by omega) ▸ h⟩

theorem commandRewrite_flagClear (w : Word) {b : EntryBit}
    (hb : b = .present ∨ b = .writable ∨ b = .userAccessible ∨ b = .accessed) : CommandRewrite w (flagClear b w) := by
  have hpos : entryBitPos b < 3 ∨ entryBitPos b = 5 := by rcases hb with rfl | rfl | rfl | rfl <;> decide
  constructor
  · intro j hj _ h5
    rw [getLsbD_flagClear, decide_eq_false (by omega), Bool.not_false, Bool.and_true]
  · intro h
    rw [getLsbD_flagClear] at h
    exact (Bool.and_eq_true_iff.mp h).1

theorem commandRewrite_remapPte (b : Word) (f : Flags) (t : Word) : CommandRewrite t (remapPte b f t) := by
  have hbit : ∀ j, 3 ≤ j → j < 12 → (remapPte b f t).getLsbD j = t.getLsbD j := fun j h3 h12 => by
    rw [getLsbD_remapPte, if_neg (by omega), if_neg (by omega), if_pos h12]
  exact ⟨fun j h3 h12 _ => hbit j h3 h12, fun h => hbit 5 (by omega) (by omega) ▸ h⟩

theorem commandRewrite_widenPde (f : Flags) (p : Word) : CommandRewrite p (widenPde f p) := by
  have hbit : ∀ j, 3 ≤ j → (widenPde f p).getLsbD j = p.getLsbD j := fun j hj => by
    rw [getLsbD_widenPde, decide_eq_false (by omega), Bool.false_and, Bool.or_false]
  exact ⟨fun j hj _ _ => hbit j hj, fun h => hbit 5 (by omega) ▸ h⟩

/-- Bits 11:3 of a fresh entry are the two policy bits alone (R90). -/
theorem getLsbD_makeEntry_mid {a : Word} (ha : aligned a = true) (f : Flags) {j : Nat} (h3 : 3 ≤ j) (h12 : j < 12) :
    (makeEntry a f).getLsbD j = decide (j = 3 ∨ j = 4) := by
  rw [getLsbD_makeEntry, (aligned_iff a).mp ha j h12, BitVec.getLsbD_of_ge f j h3, Bool.false_or, Bool.or_false]

/-! ### The slots a command writes -/

/-- What a command that ends in t has done to slot x of unit u, by what the slot reads afterwards. -/
inductive SlotEffect (s : State) (i : Instr) (t : State) (u : UnitSel) (x : Index) : Option Word → Prop
  | kept : SlotEffect s i t u x (entRead s u x)
  | rewritten (w w' : Word) (hu : writesUnit i u = true) (hw : entRead s u x = some w) (hr : CommandRewrite w w') :
      SlotEffect s i t u x (some w')
  | fresh (addr : Word) (f : Flags) (hu : writesUnit i u = true) (ha : aligned addr = true) :
      SlotEffect s i t u x (some (makeEntry addr f))
  | released (hu : writesUnit i u = true) (ht : t.pgState = .uninitialized) : SlotEffect s i t u x none

theorem SlotEffect.of_read_eq {s s' t : State} {i : Instr} {u : UnitSel} {x : Index}
    (h : entRead s' u x = entRead s u x) : SlotEffect s i t u x (entRead s' u x) := h ▸ .kept

/-- A write adds its own slot's effect to those of the state it is made in. -/
theorem SlotEffect.entWrite {s s' t : State} {i : Instr} {u v : UnitSel} {x y : Index} {w : Word}
    (hold : SlotEffect s i t u x (entRead s' u x)) (hnew : SlotEffect s i t v y (some w)) :
    SlotEffect s i t u x (entRead (entWrite s' v y w) u x) := by
  rw [entRead_entWrite]
  split
  next h =>
    obtain ⟨rfl, rfl⟩ := h
    exact hnew
  next => exact hold

theorem CommandEffect.slot {s t : State} {i : Instr} (h : CommandEffect s i t) (u : UnitSel) (x : Index) :
    SlotEffect s i t u x (entRead t u x) := by
  cases h with
  | answered | load | enable | enableFatal | disable => exact .of_read_eq (entRead_congr rfl rfl rfl rfl u x)
  | flagSet _ v y w b _ hu hw hb =>
    rw [entRead_respond]
    exact .entWrite .kept (.rewritten w _ hu hw (commandRewrite_flagSet w hb))
  | flagClear _ v y w b _ hu hw hb =>
    rw [entRead_respond]
    exact .entWrite .kept (.rewritten w _ hu hw (commandRewrite_flagClear w hb))
  | put kind tsel a b f _ hb =>
    rw [entRead_respond]
    exact .entWrite .kept (.fresh b f (writesUnit_selectUnit kind tsel) hb)
  | init kind tsel mode f b hb =>
    rw [entRead_respond, entRead_entFill]
    split
    next hu =>
      obtain ⟨addr, ha, hword⟩ := initWord_eq mode f b x.toNat hb
      rw [hword]
      exact .fresh addr f (hu ▸ writesUnit_selectUnit kind tsel) ha
    next => exact .kept
  | make f g mode =>
    obtain ⟨addr, f', ha, hword⟩ := makeWord_eq s.params ⟨f, g, mode⟩ u x
    rw [show entRead _ u x = some (makeWord s.params ⟨f, g, mode⟩ u x) by cases u <;> rfl, hword]
    exact .fresh addr f' rfl ha
  | map a b f p w _ hp _ hw _ =>
    rw [entRead_respond]
    refine .entWrite (.entWrite .kept (.rewritten w _ ?_ hw (commandRewrite_remapPte b f w)))
      (.rewritten p _ rfl hp (commandRewrite_widenPde f p))
    simp [writesUnit, directoryOffset]
  | destroy =>
    rw [show entRead _ u x = none by cases u <;> rfl]
    exact .released rfl rfl

/-- A command with an unassigned opcode is answered ILLEGAL_OP and has no other effect (R67). -/
theorem commandTurn_effect {p : Ports} {s t : State} (h : commandTurn p s = .next t) :
    (∃ i, CommandEffect s i t) ∨ t = respond s .illegalOp 0 0 := by
  unfold commandTurn at h
  split at h
  next i _ => exact .inl ⟨i, exec_effect h⟩
  next =>
    obtain ⟨-, h⟩ := unlessFatal_next h
    exact .inr (fail_next.mp h).symm

/-- Settles O45: a slot that changed belongs to a unit the command writes. -/
theorem whoWritesTheStorage : Obligations.WhoWritesTheStorage := by
  intro i s t h u hu x
  have hslot := (exec_effect h).slot u x
  generalize entRead t u x = o at hslot
  cases hslot with
  | kept => rfl
  | rewritten _ _ hw | fresh _ _ hw | released hw => exact absurd hw (by simp [hu])

/-- A command's effect on a slot sets neither its accessed nor its dirty bit (R30 item 6). -/
theorem SlotEffect.accessed_dirty_le {s t : State} {i : Instr} {u : UnitSel} {x : Index} {w' : Word}
    (h : SlotEffect s i t u x (some w')) {j : Nat} (hj : j = 5 ∨ j = 6) (hbit : w'.getLsbD j = true) :
    ∃ w, entRead s u x = some w ∧ w.getLsbD j = true := by
  generalize ho : some w' = o at h
  cases h with
  | kept => exact ⟨w', ho.symm, hbit⟩
  | rewritten w _ _ hw hr =>
    cases ho
    refine ⟨w, hw, ?_⟩
    rcases hj with rfl | rfl
    · exact hr.accessed_le hbit
    · exact hr.bits_eq 6 (by omega) (by omega) (by omega) ▸ hbit
  | fresh addr f _ ha =>
    cases ho
    rw [getLsbD_makeEntry_mid ha f (by omega) (by omega), decide_eq_true_eq] at hbit
    omega
  | released => cases ho

/-- Settles O43, by what a command does to the slot; an unassigned opcode leaves it. -/
theorem noCommandSetsAccessedOrDirty : Obligations.NoCommandSetsAccessedOrDirty := by
  intro p s t h u x w' hw' j hj hbit
  obtain ⟨i, hc⟩ | rfl := commandTurn_effect h
  · exact (hw' ▸ hc.slot u x).accessed_dirty_le hj hbit
  · exact ⟨w', by rwa [entRead_respond] at hw', hbit⟩

end Sys2Proof.Machine
end

section
/-! PROOF. The storage invariants of spec/10_state.md R30 along a step: items 1 to 3 (`StorageOk`) and item 5
(`BuiltMeansWritten`). The inputs still to come and the ports are no part of the storage. -/

namespace Sys2Proof.Machine

@[simp] theorem entRead_withInputs (s : State) (rest : List Input) (u : UnitSel) (i : Index) :
    entRead { s with inputs := rest } u i = entRead s u i := entRead_congr rfl rfl rfl rfl u i

theorem entRead_resetTurn (p : Params) (rest : List Input) (u : UnitSel) (i : Index) :
    entRead { State.reset with params := p, inputs := rest } u i = none := by cases u <;> rfl

/-! ### Policy and reserved bits (R30 items 1 to 3) -/

/-- The entry-word check looks at bits 11:3 without the accessed bit, and at the dirty bit in the directory only. -/
theorem entryWordOk_of_agree {u : UnitSel} {w w' : Word} (h : entryWordOk u w = true)
    (hagree : ∀ j, 3 ≤ j → j < 12 → j ≠ 5 → (j = 6 → u = .dir) → w'.getLsbD j = w.getLsbD j) :
    entryWordOk u w' = true := by
  obtain ⟨h4, h3, hreserved, h6⟩ := (entryWordOk_iff u w).mp h
  refine (entryWordOk_iff u w').mpr ⟨?_, ?_, fun j h7 h12 => ?_, fun hu => ?_⟩
  · rw [hagree 4 (by omega) (by omega) (by omega) (by omega), h4]
  · rw [hagree 3 (by omega) (by omega) (by omega) (by omega), h3]
  · rw [hagree j (by omega) h12 (by omega) (by omega), hreserved j h7 h12]
  · rw [hagree 6 (by omega) (by omega) (by omega) fun _ => hu, h6 hu]

theorem entryWordOk_makeEntry (u : UnitSel) {a : Word} (ha : aligned a = true) (f : Flags) :
    entryWordOk u (makeEntry a f) = true := by
  have hbit : ∀ j, 3 ≤ j → j < 12 → (makeEntry a f).getLsbD j = decide (j = 3 ∨ j = 4) :=
    fun j h3 h12 => getLsbD_makeEntry_mid ha f h3 h12
  refine (entryWordOk_iff u _).mpr ⟨hbit 4 (by omega) (by omega), hbit 3 (by omega) (by omega), fun j h7 h12 => ?_,
    fun _ => hbit 6 (by omega) (by omega)⟩
  rw [hbit j (by omega) h12, decide_eq_false (by omega)]

/-- The walker's accessed bit is none of the checked ones (R49). -/
theorem entryWordOk_flagSet_accessed {u : UnitSel} {w : Word} (h : entryWordOk u w = true) :
    entryWordOk u (flagSet .accessed w) = true := by
  refine entryWordOk_of_agree h fun j _ _ h5 _ => ?_
  rw [getLsbD_flagSet, decide_eq_false (show j ≠ entryBitPos .accessed from h5), Bool.or_false]

/-- The walker sets the dirty bit in a table only (R49). -/
theorem entryWordOk_flagSet_dirty {d : Index} {w : Word} (h : entryWordOk (.tbl d) w = true) :
    entryWordOk (.tbl d) (flagSet .dirty w) = true := by
  refine entryWordOk_of_agree h fun j _ _ _ h6 => ?_
  have hj : j ≠ entryBitPos .dirty := fun hj => nomatch h6 hj
  rw [getLsbD_flagSet, decide_eq_false hj, Bool.or_false]

theorem StorageOk.of_reads_eq {s t : State} (hs : StorageOk s) (h : ∀ u x, entRead t u x = entRead s u x) :
    StorageOk t := fun u x w hw => hs u x w (h u x ▸ hw)

theorem StorageOk.entWrite {s : State} (hs : StorageOk s) {u : UnitSel} (i : Index) {w : Word}
    (hw : entryWordOk u w = true) : StorageOk (entWrite s u i w) := by
  intro u' i' w' h
  rw [entRead_entWrite] at h
  split at h
  next heq =>
    cases h
    exact heq.1 ▸ hw
  next => exact hs u' i' w' h

theorem SlotEffect.entryWordOk {s t : State} {i : Instr} {u : UnitSel} {x : Index} {w' : Word} (hs : StorageOk s)
    (h : SlotEffect s i t u x (some w')) : entryWordOk u w' = true := by
  generalize ho : some w' = o at h
  cases h with
  | kept => exact hs u x w' ho.symm
  | rewritten w _ _ hw hr =>
    cases ho
    exact entryWordOk_of_agree (hs u x w hw) fun j h3 h12 h5 _ => hr.bits_eq j h3 h12 h5
  | fresh addr f _ ha =>
    cases ho
    exact entryWordOk_makeEntry u ha f
  | released => cases ho

theorem CommandEffect.storageOk {s t : State} {i : Instr} (h : CommandEffect s i t) (hs : StorageOk s) : StorageOk t :=
  fun u x _ hw => (hw ▸ h.slot u x).entryWordOk hs

theorem WalkerEffect.storageOk {s t : State} (h : WalkerEffect s t) (hs : StorageOk s) : StorageOk t := by
  cases h with
  | nothing => exact hs
  | dirOnly d p hp => exact hs.entWrite d (entryWordOk_flagSet_accessed (hs _ _ _ hp))
  | both d i p w dirty hp _ hw =>
    have hacc := entryWordOk_flagSet_accessed (hs _ _ _ hw)
    refine (hs.entWrite d (entryWordOk_flagSet_accessed (hs _ _ _ hp))).entWrite i ?_
    split
    · exact entryWordOk_flagSet_dirty hacc
    · exact hacc

/-- Settles O38, by the input the step takes: commands by what they do to a slot, the walker by the bits it sets. -/
theorem stepKeepsEntryWords : Obligations.StepKeepsEntryWords := by
  intro s t hs h
  have hin : ∀ rest, StorageOk { s with inputs := rest } := fun rest => hs.of_reads_eq (entRead_withInputs s rest)
  cases step_effect h with
  | idle => exact hs.of_reads_eq (entRead_portsEmpty s)
  | reset rest =>
    intro u x w hw
    rw [entRead_resetTurn] at hw
    cases hw
  | walk _ rest t' _ _ hw => exact (hw.storageOk (hin rest)).of_reads_eq (entRead_portsEmpty t')
  | command _ rest _ _ _ _ _ hc => exact hc.storageOk (hin rest)
  | illegal _ rest => exact (hin rest).of_reads_eq (entRead_respond _ _ _ _)

/-! ### Written slots (R30 item 5) -/

/-- BUILT, LOADED or ENABLED: after PG_MAKE, before PG_DESTROY, and not FATAL. -/
def IsBuilt (s : State) : Prop := s.pgState = .built ∨ s.pgState = .loaded ∨ s.pgState = .enabled

theorem builtMeansWritten_iff (s : State) : BuiltMeansWritten s ↔ (IsBuilt s → ∀ u x, entRead s u x ≠ none) := Iff.rfl

/-- Only PG_MAKE enters the built states, and it writes every slot (R133). -/
theorem CommandEffect.isBuilt_or_written {s t : State} {i : Instr} (h : CommandEffect s i t) (ht : IsBuilt t) :
    IsBuilt s ∨ ∀ u x, entRead t u x ≠ none := by
  cases h with
  | answered => exact .inl ht
  | flagSet | flagClear | put | init | map => exact .inl (by simpa [IsBuilt] using ht)
  | make =>
    refine .inr fun u x => ?_
    cases u <;> exact Option.some_ne_none _
  | load hs => exact .inl (hs.imp_right .inl)
  | enable hs => exact .inl (.inr hs)
  | enableFatal | destroy => simp [IsBuilt] at ht
  | disable ps hps =>
    left
    by_cases he : s.pgState = .enabled
    · exact .inr (.inr he)
    · rw [if_neg he] at hps
      subst hps
      exact ht

/-- A command releases slots only on its way to UNINITIALIZED (R139). -/
theorem CommandEffect.written_of_written {s t : State} {i : Instr} (h : CommandEffect s i t)
    (ht : t.pgState ≠ .uninitialized) {u : UnitSel} {x : Index} (hw : entRead s u x ≠ none) : entRead t u x ≠ none := by
  have hslot := h.slot u x
  generalize entRead t u x = o at hslot
  cases hslot with
  | kept => exact hw
  | rewritten | fresh => exact Option.some_ne_none _
  | released _ hun => exact absurd hun ht

theorem CommandEffect.builtMeansWritten {s t : State} {i : Instr} (h : CommandEffect s i t) (hs : BuiltMeansWritten s) :
    BuiltMeansWritten t := by
  rw [builtMeansWritten_iff] at hs ⊢
  intro ht u x
  obtain hb | hall := h.isBuilt_or_written ht
  · exact h.written_of_written (by rcases ht with ht | ht | ht <;> simp [ht]) (hs hb u x)
  · exact hall u x

theorem entRead_entWrite_ne_none {s : State} (v : UnitSel) (y : Index) (w : Word) {u : UnitSel} {x : Index}
    (h : entRead s u x ≠ none) : entRead (entWrite s v y w) u x ≠ none := by
  rw [entRead_entWrite]
  split
  · exact Option.some_ne_none _
  · exact h

theorem WalkerEffect.pgState_eq {s t : State} (h : WalkerEffect s t) : t.pgState = s.pgState := by
  cases h with
  | nothing => rfl
  | dirOnly | both => simp only [entWrite_pgState]

theorem WalkerEffect.written_of_written {s t : State} (h : WalkerEffect s t) {u : UnitSel} {x : Index}
    (hw : entRead s u x ≠ none) : entRead t u x ≠ none := by
  cases h with
  | nothing => exact hw
  | dirOnly => exact entRead_entWrite_ne_none _ _ _ hw
  | both => exact entRead_entWrite_ne_none _ _ _ (entRead_entWrite_ne_none _ _ _ hw)

theorem BuiltMeansWritten.of_written {s t : State} (hs : BuiltMeansWritten s) (hp : t.pgState = s.pgState)
    (h : ∀ u x, entRead s u x ≠ none → entRead t u x ≠ none) : BuiltMeansWritten t :=
  fun ht u x => h u x (hs (hp ▸ ht) u x)

/-- Settles O39, by the input the step takes. A walker step leaves `pg_state` and unwrites nothing; reset ends in
UNINITIALIZED. -/
theorem stepKeepsBuiltMeansWritten : Obligations.StepKeepsBuiltMeansWritten := by
  intro s t hs h
  have hin : ∀ rest, BuiltMeansWritten { s with inputs := rest } := fun rest =>
    hs.of_written rfl fun u x hw => by rwa [entRead_withInputs]
  cases step_effect h with
  | idle => exact hs.of_written rfl fun u x hw => by rwa [entRead_portsEmpty]
  | reset => simp [BuiltMeansWritten]
  | walk _ rest t' _ _ hw =>
    refine (hin rest).of_written hw.pgState_eq fun u x hx => ?_
    rw [entRead_portsEmpty]
    exact hw.written_of_written hx
  | command _ rest _ _ _ _ _ hc => exact hc.builtMeansWritten (hin rest)
  | illegal _ rest => exact (hin rest).of_written rfl fun u x hw => by rwa [entRead_respond]

end Sys2Proof.Machine
end

section
/-! PROOF. Who writes the control state (spec/10_state.md R29), and what PG_LOOKUP reads (R26, spec/43_paging.md R132). -/

namespace Sys2Proof.Machine

/-- Settles O44, by what the command has done: an answer or a write of slots leaves every field of the
control state, and each of the five commands that move it writes its own fields and no other. -/
theorem whoWritesTheControlState : Obligations.WhoWritesTheControlState := by
  intro i s t h
  cases exec_effect h with
  | answered | flagSet | flagClear | put | init | map => simp
  | make | load | enable | enableFatal | disable | destroy => simp

/-! ### PG_LOOKUP -/

/-- What PG_LOOKUP answers for the address a where the PDE is p and the PTE's slot reads o (R132). -/
def lookupResponse (a p : Word) (o : Option Word) : Response :=
  if flagOf .present p then
    match o with
    | none => ⟨.unwritten, 0, 0⟩
    | some t => ⟨.ok, lookupAddress a t, lookupRights p t⟩
  else ⟨.nonPresentPageTable, 0, 0⟩

theorem exec_pgLookup_of_pde {s : State} {a p : Word} (hf : s.pgState ≠ .fatal)
    (hp : entRead s .dir (directoryOffset a) = some p) :
    exec (.pgLookup a) s = .next { s with
      response := some (lookupResponse a p (entRead s (.tbl (directoryOffset a)) (tableOffset a))) } := by
  simp only [exec, execPgLookup, unlessFatal_of_ne hf, withLookup, withEntry, hp, lookupResponse]
  split
  · cases entRead s (.tbl (directoryOffset a)) (tableOffset a) <;> rfl
  · rfl

/-- Of the PDE, PG_LOOKUP's answer depends on bits 2:0 alone. -/
theorem lookupResponse_congr (a : Word) {p p' : Word} (o : Option Word)
    (h : p.extractLsb' 0 3 = p'.extractLsb' 0 3) : lookupResponse a p o = lookupResponse a p' o := by
  have hpres : flagOf .present p = flagOf .present p' := by
    simpa [flagOf, entryBitPos] using congrArg (·.getLsbD 0) h
  simp only [lookupResponse, lookupRights, hpres, h]

/-- Settles O21: PG_LOOKUP's answer is a function of the PDE's low bits and of the PTE in the table of that number. -/
theorem lookupIgnoresThePdeAddress : Obligations.LookupIgnoresThePdeAddress := by
  intro s s' a p p' hf hf' hp hp' hlow htbl
  have h3 : p.extractLsb' 0 3 = p'.extractLsb' 0 3 := by
    have := congrArg (·.extractLsb' 0 3) hlow
    simpa using this
  refine ⟨_, exec_pgLookup_of_pde hf hp, ?_⟩
  rw [exec_pgLookup_of_pde hf' hp', htbl, lookupResponse_congr a _ h3]

end Sys2Proof.Machine
end

section
/-! PROOF. No step reads the response ports (spec/10_state.md R20, R22; log 2), and the idle step (log 11). -/

namespace Sys2Proof.Machine

theorem entWrite_withResponse (s : State) (r : Option Response) (u : UnitSel) (i : Index) (w : Word) :
    entWrite { s with response := r } u i w = { entWrite s u i w with response := r } := by cases u <;> rfl

theorem storedMutator_withResponse (g : Word → Word) (u : UnitSel) (a : Word) (s : State) (r : Option Response) :
    storedMutator g u a { s with response := r } = storedMutator g u a s := by cases u <;> rfl

/-- Once the unit of a storage command is known, no meaning's answer contains the old response. -/
theorem exec_withResponse (i : Instr) (s : State) (r : Option Response) :
    exec i { s with response := r } = exec i s := by
  cases i with
  | ctInit kind | ctPut kind | ctMarkPresent kind | ctMarkNotPresent kind | ctEnableWriting kind | ctDisableWriting kind
  | ctEnableUserAccess kind | ctDisableUserAccess kind | ctResetAccessed kind => cases kind <;> rfl
  | _ => rfl

theorem commandTurn_withResponse (p : Ports) (s : State) (r : Option Response) :
    commandTurn p { s with response := r } = commandTurn p s := by
  unfold commandTurn
  split
  · exact exec_withResponse _ s r
  · rfl

theorem presentEntry_withResponse (s : State) (r : Option Response) (u : UnitSel) (i : Index) :
    presentEntry { s with response := r } u i = presentEntry s u i := rfl

/-- The walker's writes carry the response along and depend on nothing of it. -/
theorem walkerWrites_withResponse (draw : WalkerDraw) (s : State) (r : Option Response) :
    walkerWrites draw { s with response := r } = (walkerWrites draw s).map fun t => { t with response := r } := by
  obtain ⟨d, leaf⟩ := draw
  simp only [walkerWrites, presentEntry_withResponse, entWrite_withResponse]
  cases presentEntry s .dir d with
  | none => rfl
  | some p =>
    cases leaf with
    | none => rfl
    | some l =>
      obtain ⟨i, dirty⟩ := l
      dsimp only
      cases presentEntry s (.tbl d) i <;> rfl

theorem walkerTurn_withResponse (draw : WalkerDraw) (s : State) (r : Option Response) :
    walkerTurn draw { s with response := r } = walkerTurn draw s := by
  simp only [walkerTurn, walkerWrites_withResponse]
  cases walkerWrites draw s <;> rfl

theorem step_of_nil {s : State} (hi : s.inputs = []) : step s = idle s := by simp only [step, hi]

theorem step_of_command {s : State} {p : Ports} {rest : List Input} (hi : s.inputs = .command p :: rest) :
    step s = commandTurn p { s with inputs := rest } := by simp only [step, hi]

theorem step_of_walk {s : State} {draw : WalkerDraw} {rest : List Input} (hi : s.inputs = .walk draw :: rest) :
    step s = walkerTurn draw { s with inputs := rest } := by simp only [step, hi]

theorem step_of_reset {s : State} {rest : List Input} (hi : s.inputs = .reset :: rest) :
    step s = resetTurn { s with inputs := rest } := by simp only [step, hi]

/-- No step reads what the step before it left on the ports. -/
theorem step_withResponse (s : State) (r : Option Response) : step { s with response := r } = step s := by
  cases hi : s.inputs with
  | nil =>
    rw [step_of_nil hi, ← hi]
    exact step_of_nil (s := { s with response := r }) hi
  | cons input rest =>
    cases input with
    | command p => exact (commandTurn_withResponse p { s with inputs := rest } r).trans (step_of_command hi).symm
    | walk draw => exact (walkerTurn_withResponse draw { s with inputs := rest } r).trans (step_of_walk hi).symm
    | reset => exact (step_of_reset hi).symm

/-- Settles O60: the first part by the input the step takes, the second by what a step that is no command has done. -/
theorem portsHoldNoValueBetweenCommands : Obligations.PortsHoldNoValueBetweenCommands := by
  refine fun s r => ⟨step_withResponse s r, fun t h hno => ?_⟩
  cases step_effect h with
  | idle | reset | walk => rfl
  | command p rest _ _ hi | illegal p rest _ hi => exact absurd hi (hno p rest)

/-- Settles O56: outside FATAL the idle step is answered, and only the ports are emptied. -/
theorem idleStepChangesNothing : Obligations.IdleStepChangesNothing := by
  intro s hi hf
  rw [step_of_nil hi]
  exact unlessFatal_of_ne hf _

end Sys2Proof.Machine
end

section
/-! PROOF. The canonical form of the entry storage along a step (log 8), assembled from the laws of the storage operations. -/

namespace Sys2Proof.Machine

theorem memory_wf_withInputs (s : State) (rest : List Input) : Memory.wf { s with inputs := rest } = Memory.wf s :=
  memory_wf_congr rfl rfl rfl rfl

/-- PG_MAKE and PG_DESTROY leave no cell listed, and the commands that move the control state leave the storage. -/
theorem CommandEffect.memory_wf {s t : State} {i : Instr} (h : CommandEffect s i t) (hs : Memory.wf s = true) :
    Memory.wf t = true := by
  cases h with
  | answered | load | enable | enableFatal | disable => exact (memory_wf_congr rfl rfl rfl rfl).trans hs
  | flagSet | flagClear | put =>
    rw [respond_wf]
    exact entWrite_wf _ _ _ hs
  | init =>
    rw [respond_wf]
    exact entFill_wf _ _ hs
  | map =>
    rw [respond_wf]
    exact entWrite_wf _ _ _ (entWrite_wf _ _ _ hs)
  | make | destroy => rfl

theorem WalkerEffect.memory_wf {s t : State} (h : WalkerEffect s t) (hs : Memory.wf s = true) : Memory.wf t = true := by
  cases h with
  | nothing => exact hs
  | dirOnly => exact entWrite_wf _ _ _ hs
  | both => exact entWrite_wf _ _ _ (entWrite_wf _ _ _ hs)

/-- Settles O41, by the input the step takes: every write of a slot or of a unit keeps the canonical form, and after a reset
no cell is listed. -/
theorem stepKeepsCanonicalStorage : Obligations.StepKeepsCanonicalStorage := by
  intro s t hs h
  have hin : ∀ rest, Memory.wf { s with inputs := rest } = true := fun rest => (memory_wf_withInputs s rest).trans hs
  cases step_effect h with
  | idle => exact (portsEmpty_wf s).trans hs
  | reset => rfl
  | walk _ rest t' _ _ hw => exact (portsEmpty_wf t').trans (hw.memory_wf (hin rest))
  | command _ rest _ _ _ _ _ hc => exact hc.memory_wf (hin rest)
  | illegal _ rest => exact (respond_wf _ _ _ _).trans (hin rest)

end Sys2Proof.Machine
end

section
/-! PROOF. The walker (spec/20_memory.md R49): when a draw is taken and when it is not, what it writes, and that it touches its
own bits only. -/

namespace Sys2Proof.Machine

/-! ### When a draw writes nothing -/

theorem presentEntry_withInputs (s : State) (rest : List Input) (u : UnitSel) (i : Index) :
    presentEntry { s with inputs := rest } u i = presentEntry s u i := rfl

theorem presentEntry_eq_none {s : State} {u : UnitSel} {i : Index}
    (h : entRead s u i = none ∨ ∃ w, entRead s u i = some w ∧ w.getLsbD 0 = false) : presentEntry s u i = none := by
  obtain h | ⟨w, h, hbit⟩ := h
  · simp only [presentEntry, h]
  · have hp : flagOf .present w = false := hbit
    simp [presentEntry, h, hp]

theorem walkerWrites_of_dir_absent {s : State} {d : Index} (leaf : Option (Index × Bool))
    (hd : presentEntry s .dir d = none) : walkerWrites ⟨d, leaf⟩ s = none := by simp only [walkerWrites, hd]

/-- A table slot that is not present keeps the whole draw from being taken (log 6). -/
theorem walkerWrites_of_leaf_absent {s : State} {d i : Index} (dirty : Bool) (ht : presentEntry s (.tbl d) i = none) :
    walkerWrites ⟨d, some (i, dirty)⟩ s = none := by
  cases hd : presentEntry s .dir d with
  | none => exact walkerWrites_of_dir_absent _ hd
  | some p => simp only [walkerWrites, hd, ht]

theorem walkerTurn_of_disabled {s : State} (draw : WalkerDraw) (hf : s.pgState ≠ .fatal) (he : walkerEnabled s = false) :
    walkerTurn draw s = .next (portsEmpty s) := by simp [walkerTurn, unlessFatal_of_ne hf, he]

theorem walkerTurn_of_no_writes {s : State} {draw : WalkerDraw} (hf : s.pgState ≠ .fatal)
    (hw : walkerWrites draw s = none) : walkerTurn draw s = .next (portsEmpty s) := by
  simp [walkerTurn, unlessFatal_of_ne hf, hw]

/-- Settles O48: the walker is disabled, or the draw's writes are none, whichever of its slots is the absent one. -/
theorem walkerNeedsPresentEntries : Obligations.WalkerNeedsPresentEntries := by
  intro s d leaf rest hi hf h
  rw [step_of_walk hi]
  have hdir (habsent : entRead s .dir d = none ∨ ∃ p, entRead s .dir d = some p ∧ p.getLsbD 0 = false) :
      walkerTurn ⟨d, leaf⟩ { s with inputs := rest } = .next { s with inputs := rest, response := none } := by
    refine walkerTurn_of_no_writes hf (walkerWrites_of_dir_absent leaf ?_)
    rw [presentEntry_withInputs, presentEntry_eq_none habsent]
  obtain hw | hp | hd | hd | ⟨i, dirty, rfl, ht⟩ := h
  · exact walkerTurn_of_disabled _ hf (by simp [walkerEnabled, hw])
  · exact walkerTurn_of_disabled _ hf (by simp [walkerEnabled, hp])
  · exact hdir (.inl hd)
  · exact hdir (.inr hd)
  · refine walkerTurn_of_no_writes hf (walkerWrites_of_leaf_absent dirty ?_)
    rw [presentEntry_withInputs, presentEntry_eq_none ht]

/-! ### What a draw that is taken writes -/

theorem flagSet_accessed_eq (w : Word) : flagSet .accessed w = w ||| 0x00000020#32 := rfl

theorem flagSet_dirty_accessed_eq (w : Word) : flagSet .dirty (flagSet .accessed w) = w ||| 0x00000060#32 :=
  BitVec.or_assoc w _ _

theorem walkerWrites_dir {s : State} {d : Index} {p : Word} (hp : presentEntry s .dir d = some p) :
    walkerWrites ⟨d, none⟩ s = some (entWrite s .dir d (p ||| 0x00000020#32)) := by
  simp only [walkerWrites, hp, flagSet_accessed_eq]

theorem walkerWrites_both {s : State} {d i : Index} {dirty : Bool} {p w : Word} (hp : presentEntry s .dir d = some p)
    (hw : presentEntry s (.tbl d) i = some w) :
    walkerWrites ⟨d, some (i, dirty)⟩ s = some (entWrite (entWrite s .dir d (p ||| 0x00000020#32)) (.tbl d) i
      (if dirty then w ||| 0x00000060#32 else w ||| 0x00000020#32)) := by
  simp only [walkerWrites, hp, hw, ← flagSet_dirty_accessed_eq, ← flagSet_accessed_eq]

theorem walkerTurn_of_writes {s t : State} {draw : WalkerDraw} (he : walkerEnabled s = true)
    (hw : walkerWrites draw s = some t) : walkerTurn draw s = .next (portsEmpty t) := by
  have hf : s.pgState ≠ .fatal := by simpa using (Bool.and_eq_true_iff.mp he).2
  simp [walkerTurn, unlessFatal_of_ne hf, he, hw]

/-- Settles O47: both forms of the draw are taken, and the reads are those after the slots' writes. -/
theorem walkerSetsAccessedAndDirty : Obligations.WalkerSetsAccessedAndDirty := by
  intro s d leaf rest p hi hwalker hon hf hp hpres
  have he : walkerEnabled { s with inputs := rest } = true := by simp [walkerEnabled, hwalker, hon, hf]
  have hdir : presentEntry { s with inputs := rest } .dir d = some p :=
    (presentEntry_withInputs ..).trans (presentEntry_of hp hpres)
  rw [step_of_walk hi]
  constructor
  · rintro rfl
    refine ⟨_, walkerTurn_of_writes he (walkerWrites_dir hdir), by simp [SameControl], rfl, by simp, by simp,
      fun u x => ?_⟩
    simp only [entRead_portsEmpty, entRead_entWrite, entRead_withInputs]
  · rintro i dirty w rfl hw hwpres
    have htbl : presentEntry { s with inputs := rest } (.tbl d) i = some w :=
      (presentEntry_withInputs ..).trans (presentEntry_of hw hwpres)
    refine ⟨_, walkerTurn_of_writes he (walkerWrites_both hdir htbl), by simp [SameControl], rfl, by simp, by simp,
      fun u x => ?_⟩
    simp only [entRead_portsEmpty, entRead_entWrite, entRead_withInputs]
    cases u with
    | dir => simp
    | tbl => simp

/-! ### The bits a draw touches -/

/-- How the walker may change a word of unit u: it clears no bit, sets bits 5 and 6 only, and bit 6 in a table only (R49). -/
structure WalkerRewrite (u : UnitSel) (w w' : Word) : Prop where
  bits_le : ∀ j, w.getLsbD j = true → w'.getLsbD j = true
  bits_eq : ∀ j, j ≠ 5 → j ≠ 6 → w'.getLsbD j = w.getLsbD j
  dir_dirty_eq : u = .dir → w'.getLsbD 6 = w.getLsbD 6

theorem walkerRewrite_accessed (u : UnitSel) (w : Word) : WalkerRewrite u w (flagSet .accessed w) := by
  have hbit : ∀ j, (flagSet .accessed w).getLsbD j = (w.getLsbD j || decide (j = 5)) := getLsbD_flagSet .accessed w
  refine ⟨fun j hj => ?_, fun j h5 _ => ?_, fun _ => ?_⟩
  · rw [hbit, hj, Bool.true_or]
  · rw [hbit, decide_eq_false h5, Bool.or_false]
  · rw [hbit, decide_eq_false (by omega), Bool.or_false]

theorem WalkerRewrite.dirty {d : Index} {w w' : Word} (h : WalkerRewrite (.tbl d) w w') :
    WalkerRewrite (.tbl d) w (flagSet .dirty w') := by
  have hbit : ∀ j, (flagSet .dirty w').getLsbD j = (w'.getLsbD j || decide (j = 6)) := getLsbD_flagSet .dirty w'
  refine ⟨fun j hj => ?_, fun j h5 h6 => ?_, nofun⟩
  · rw [hbit, h.bits_le j hj, Bool.true_or]
  · rw [hbit, h.bits_eq j h5 h6, decide_eq_false h6, Bool.or_false]

/-- What a walker step has done to slot x of unit u, by what the slot reads afterwards. -/
inductive WalkerSlot (s : State) (u : UnitSel) (x : Index) : Option Word → Prop
  | kept : WalkerSlot s u x (entRead s u x)
  | rewritten (w w' : Word) (hw : entRead s u x = some w) (hpres : w.getLsbD 0 = true) (hr : WalkerRewrite u w w') :
      WalkerSlot s u x (some w')

/-- A write adds its own slot's effect to those of the state it is made in. -/
theorem WalkerSlot.entWrite {s s' : State} {u v : UnitSel} {x y : Index} {w : Word}
    (hold : WalkerSlot s u x (entRead s' u x)) (hnew : WalkerSlot s v y (some w)) :
    WalkerSlot s u x (entRead (entWrite s' v y w) u x) := by
  rw [entRead_entWrite]
  split
  next h =>
    obtain ⟨rfl, rfl⟩ := h
    exact hnew
  next => exact hold

theorem WalkerEffect.slot {s t : State} (h : WalkerEffect s t) (u : UnitSel) (x : Index) :
    WalkerSlot s u x (entRead t u x) := by
  cases h with
  | nothing => exact .kept
  | dirOnly d p hp hpres => exact .entWrite .kept (.rewritten p _ hp hpres (walkerRewrite_accessed _ p))
  | both d i p w dirty hp hpres hw hwpres =>
    have hacc := walkerRewrite_accessed (.tbl d) w
    refine .entWrite (.entWrite .kept (.rewritten p _ hp hpres (walkerRewrite_accessed _ p)))
      (.rewritten w _ hw hwpres ?_)
    split
    · exact hacc.dirty
    · exact hacc

/-- Settles O49, by what the walker step has done to the slot. -/
theorem walkerTouchesOnlyItsBits : Obligations.WalkerTouchesOnlyItsBits := by
  intro s t draw rest hi h u x
  rw [step_of_walk hi] at h
  obtain ⟨-, t', hw, rfl⟩ := walker_effect h
  have hslot := hw.slot u x
  rw [entRead_portsEmpty]
  generalize entRead t' u x = o at hslot
  cases hslot with
  | kept => exact .inl (entRead_withInputs ..)
  | rewritten w w' hread hpres hr =>
    rw [entRead_withInputs] at hread
    exact .inr ⟨w, w', hread, hpres, rfl, hr.bits_le, hr.bits_eq, hr.dir_dirty_eq⟩

end Sys2Proof.Machine
end

section
/-! PROOF. The command step (spec/20_memory.md R45, R50) and the byte view of a slot (R47). -/

namespace Sys2Proof.Machine

theorem commandTurn_of_ok {p : Ports} {i : Instr} (hd : decode p = .ok i) (s : State) : commandTurn p s = exec i s := by
  simp only [commandTurn, hd]

theorem commandTurn_of_error {p : Ports} {e : DecodeError} (hd : decode p = .error e) (s : State) :
    commandTurn p s = illegalOpcode s := by
  simp only [commandTurn, hd]

/-- Settles O55: the step is the command's turn, and the turn follows the decoder's answer. -/
theorem stepRunsTheDecodedCommand : Obligations.StepRunsTheDecodedCommand := by
  intro s p rest hi
  rw [step_of_command hi]
  refine ⟨fun i hd => commandTurn_of_ok hd _, fun e hd hf => ?_⟩
  rw [commandTurn_of_error hd]
  exact unlessFatal_of_ne hf _

theorem byteView_of_entRead {s : State} {u : UnitSel} {i : Index} {w : Word} (h : entRead s u i = some w) (k : Nat) :
    byteView s u i k = some ((unitBase s.params u).toNat + 4 * i.toNat + k, w.extractLsb' (8 * k) 8) := by
  simp only [byteView, h]

theorem word_eq_bytes (w : Word) :
    w = w.extractLsb' 24 8 ++ w.extractLsb' 16 8 ++ w.extractLsb' 8 8 ++ w.extractLsb' 0 8 := by
  rw [BitVec.extractLsb'_append_extractLsb'_eq_extractLsb' (show 24 = 16 + 8 from rfl),
    BitVec.extractLsb'_append_extractLsb'_eq_extractLsb' (show 16 = 8 + 8 from rfl),
    BitVec.extractLsb'_append_extractLsb'_eq_extractLsb' (show 8 = 0 + 8 from rfl), BitVec.extractLsb'_eq_self]

/-- Settles O59: the byte view cuts the word the slot holds. -/
theorem byteViewIsLittleEndian : Obligations.ByteViewIsLittleEndian := by
  intro s u i w h
  exact ⟨_, _, _, _, word_eq_bytes w, byteView_of_entRead h 0, byteView_of_entRead h 1, byteView_of_entRead h 2,
    byteView_of_entRead h 3⟩

end Sys2Proof.Machine
end

section
/-! PROOF. The command port (spec/30_encoding.md R60, R64, R66, R67, R69): the decoder and the encoder undo each other on the
ports an opcode's row reads, the decoder sees no other port, and the opcodes it refuses are those of R67. -/

namespace Sys2Proof

/-! ### The one-bit ports `kind` and `mode` -/

theorem kindOf_bit (k : Kind) : kindOf k.bit = k := by cases k <;> rfl

theorem modeOf_bit (m : InitMode) : modeOf m.bit = m := by cases m <;> rfl

theorem bit_kindOf (k : BitVec 1) : (kindOf k).bit = k := by
  obtain rfl | rfl := BitVec.eq_zero_or_eq_one k <;> rfl

theorem bit_modeOf (m : BitVec 1) : (modeOf m).bit = m := by
  obtain rfl | rfl := BitVec.eq_zero_or_eq_one m <;> rfl

/-! ### Decoding what was encoded -/

/-- The three groups are the rows that read neither one-bit port, those that read `kind`, and those that read `mode`. -/
theorem decode_encode (i : Instr) : decode (encode i) = .ok i := by
  cases i with
  | bfGetBit | bfSetBit | bfClrBit | bfGetRange | bfSetRange | bfClrRange | pgSplit | pgLookup | pgMap | pgLoad | pgEnable
  | pgDisable | pgDestroy => rfl
  | entMake | entGetAddress | entIsPresent | entIsWriteable | entCanUserAccess | entWasAccessed | entIsDirty
  | entMarkPresent | entMarkNotPresent | entEnableWriting | entDisableWriting | entEnableUserAccess | entDisableUserAccess
  | entResetAccessed | ctGet | ctPut | ctGetAddress | ctIsPresent | ctIsWriteable | ctCanUserAccess | ctWasAccessed
  | ctIsDirty | ctMarkPresent | ctMarkNotPresent | ctEnableWriting | ctDisableWriting | ctEnableUserAccess
  | ctDisableUserAccess | ctResetAccessed => simp [encode, decode, kindOf_bit]
  | ctInit | pgMake => simp [encode, decode, kindOf_bit, modeOf_bit]

/-- Settles O50. -/
theorem decodeOfEncode : Obligations.DecodeOfEncode := decode_encode

/-! ### The part of a command that its row reads -/

/-- The command with every port that its row does not read put to 0, the value of a port not written (R69). -/
def Ports.readPart (p : Ports) : Ports where
  op := p.op
  kind := if .kind ∈ portsRead p.op then p.kind else 0
  tsel := if .tsel ∈ portsRead p.op then p.tsel else 0
  mode := if .mode ∈ portsRead p.op then p.mode else 0
  f := if .f ∈ portsRead p.op then p.f else 0
  g := if .g ∈ portsRead p.op then p.g else 0
  hi := if .hi ∈ portsRead p.op then p.hi else 0
  lo := if .lo ∈ portsRead p.op then p.lo else 0
  a := if .a ∈ portsRead p.op then p.a else 0
  b := if .b ∈ portsRead p.op then p.b else 0

@[simp] theorem Ports.readPart_op (p : Ports) : p.readPart.op = p.op := rfl

theorem Ports.readPart_sameOn_of_mem {p : Ports} {x : Port} (h : x ∈ portsRead p.op) : p.readPart.sameOn p x = true := by
  cases x <;> simp only [readPart, sameOn, h, if_true, beq_self_eq_true]

theorem Ports.readPart_sameOn_of_notMem {p : Ports} {x : Port} (h : x ∉ portsRead p.op) :
    p.readPart.sameOn { op := 0 } x = true := by
  cases x <;> simp only [readPart, sameOn, h, if_false, beq_self_eq_true]

theorem Ports.readPart_congr {p q : Ports} (hop : p.op = q.op) (h : ∀ x ∈ portsRead p.op, p.sameOn q x = true) :
    p.readPart = q.readPart := by
  simp only [readPart, ← hop, mk.injEq, true_and]
  refine ⟨?_, ?_, ?_, ?_, ?_, ?_, ?_, ?_, ?_⟩ <;>
    exact ite_congr rfl (fun hx => eq_of_beq (h _ hx)) fun _ => rfl

/-! ### Encoding what was decoded -/

/-- The table of the decoder read backwards, row by row. -/
theorem encode_of_decode {p : Ports} {i : Instr} (h : decode p = .ok i) : encode i = p.readPart := by
  unfold decode at h
  split at h <;> cases h
  all_goals next hop => simp [encode, Ports.readPart, hop, portsRead, bit_kindOf, bit_modeOf]

/-- Settles O51: what the encoder gives back is the part of the command that its row reads. -/
theorem encodeOfDecode : Obligations.EncodeOfDecode := by
  intro p i h
  rw [encode_of_decode h]
  exact ⟨rfl, fun _ => Ports.readPart_sameOn_of_mem, fun _ => Ports.readPart_sameOn_of_notMem⟩

/-! ### Refused opcodes -/

theorem encode_op_mem_assignedOpcodes (i : Instr) : (encode i).op ∈ assignedOpcodes := by
  cases i <;> exact of_decide_eq_true rfl

theorem op_mem_assignedOpcodes_of_decode {p : Ports} {i : Instr} (h : decode p = .ok i) : p.op ∈ assignedOpcodes := by
  have hop : (encode i).op = p.op := by rw [encode_of_decode h, Ports.readPart_op]
  exact hop ▸ encode_op_mem_assignedOpcodes i

theorem decode_eq_error {p : Ports} {e : DecodeError} (h : decode p = .error e) :
    e = .unassigned p.op ∧ p.op ∉ assignedOpcodes := by
  unfold decode at h
  split at h <;> cases h
  simp_all [assignedOpcodes]

theorem decode_eq_error_iff {p : Ports} : decode p = .error (.unassigned p.op) ↔ p.op ∉ assignedOpcodes := by
  refine ⟨fun h => (decode_eq_error h).2, fun hm => ?_⟩
  cases h : decode p with
  | ok i => exact absurd (op_mem_assignedOpcodes_of_decode h) hm
  | error e => rw [(decode_eq_error h).1]

/-- R67's list of illegal opcodes is the complement of R66's table. -/
theorem notMem_assignedOpcodes_iff (op : BitVec 8) :
    op ∉ assignedOpcodes ↔
      op.toNat = 0x00 ∨ (0x07 ≤ op.toNat ∧ op.toNat ≤ 0x0F) ∨ op.toNat = 0x17 ∨ op.toNat = 0x1F ∨
        (0x23 ≤ op.toNat ∧ op.toNat ≤ 0x30) ∨ op.toNat = 0x37 ∨ op.toNat = 0x3F ∨ 0x48 ≤ op.toNat := by
  simp only [assignedOpcodes, List.mem_cons, List.not_mem_nil, or_false, ← BitVec.toNat_inj, BitVec.ofNat_eq_ofNat,
    BitVec.reduceToNat]
  omega

/-! ### The decoder sees only what the row reads -/

theorem decode_readPart (p : Ports) : decode p.readPart = decode p := by
  cases h : decode p with
  | ok i => rw [← encode_of_decode h, decode_encode]
  | error e =>
    obtain ⟨rfl, hm⟩ := decode_eq_error h
    exact decode_eq_error_iff.mpr hm

theorem decode_congr {p q : Ports} (hop : p.op = q.op) (h : ∀ x ∈ portsRead p.op, p.sameOn q x = true) :
    decode p = decode q :=
  calc decode p = decode p.readPart := (decode_readPart p).symm
    _ = decode q.readPart := congrArg decode (Ports.readPart_congr hop h)
    _ = decode q := decode_readPart q

end Sys2Proof

namespace Sys2Proof.Machine

/-- Settles O52: the outcome depends on the command through its decoding alone. -/
theorem unreadPortsAreIgnored : Obligations.UnreadPortsAreIgnored := by
  intro p q hop h
  have hd : decode p = decode q := decode_congr hop h
  exact ⟨hd, fun s => by simp only [commandTurn, hd]⟩

/-! ### The answer ILLEGAL_OP -/

theorem illegalOpcode_of_ne {s : State} (hf : s.pgState ≠ .fatal) :
    illegalOpcode s = .next { s with response := some ⟨.illegalOp, 0, 0⟩ } :=
  unlessFatal_of_ne hf _

/-- The dirty accessors of a PDE are answered as an unassigned opcode is (R97, R119). -/
theorem commandTurn_of_pde_dirty {p : Ports} (hop : p.op = 0x16#8 ∨ p.op = 0x36#8) (hk : p.kind = 1#1) (s : State) :
    commandTurn p s = illegalOpcode s := by
  obtain hop | hop := hop
  · have hd : decode p = .ok (.entIsDirty .pde p.a) := by simp [decode, hop, hk, kindOf]
    exact commandTurn_of_ok hd s
  · have hd : decode p = .ok (.ctIsDirty .pde p.tsel p.a) := by simp [decode, hop, hk, kindOf]
    exact commandTurn_of_ok hd s

/-- Settles O53: the decoder refuses R67's opcodes, and both kinds of illegal encoding end in `illegalOpcode`. -/
theorem illegalEncodingsAreAnsweredIllegalOp : Obligations.IllegalEncodingsAreAnsweredIllegalOp := by
  intro p s hf
  rw [← illegalOpcode_of_ne hf]
  exact ⟨(notMem_assignedOpcodes_iff p.op).symm.trans decode_eq_error_iff.symm, fun hd => commandTurn_of_error hd s,
    fun hop hk => commandTurn_of_pde_dirty hop hk s⟩

/-- Settles O54: the decoder evaluated on the five commands. -/
theorem sampleCommandsDecode : Obligations.SampleCommandsDecode := ⟨rfl, rfl, rfl, rfl, rfl⟩

end Sys2Proof.Machine
end

section
/-! PROOF. The bit-field utilities (spec/40_bitfield.md R80 to R87): the words they answer with, bit by bit, what each command
answers, and the laws, which are facts about those words. -/

namespace Sys2Proof.Machine

/-! ### The words the range utilities answer with -/

/-- R84: the bits of the range, moved down to bit 0. -/
def rangeGet (a : Word) (hi lo : BitPos) : Word := (a >>> lo.toNat) &&& mask (rangeLength hi lo)

/-- R86: the word with the bits of the range forced to 0. -/
def rangeClear (a : Word) (hi lo : BitPos) : Word := a &&& ~~~(rangeMask hi lo)

/-- R85: the word with the range replaced by b. -/
def rangeSet (a b : Word) (hi lo : BitPos) : Word := rangeClear a hi lo ||| (b <<< lo.toNat)

theorem getLsbD_rangeMask {hi lo : BitPos} (h : lo.toNat ≤ hi.toNat) (j : Nat) :
    (rangeMask hi lo).getLsbD j = decide (lo.toNat ≤ j ∧ j ≤ hi.toNat) := by
  have := hi.isLt
  rw [rangeMask, mask, BitVec.getLsbD_shiftLeft, getLsbD_mask, rangeLength, Bool.eq_iff_iff]
  simp only [Bool.and_eq_true, Bool.not_eq_true', decide_eq_true_eq, decide_eq_false_iff_not]
  omega

theorem getLsbD_rangeGet {hi lo : BitPos} (h : lo.toNat ≤ hi.toNat) (a : Word) (j : Nat) :
    (rangeGet a hi lo).getLsbD j = (decide (lo.toNat + j ≤ hi.toNat) && a.getLsbD (lo.toNat + j)) := by
  have hm : (mask (rangeLength hi lo)).getLsbD j = decide (lo.toNat + j ≤ hi.toNat) := by
    have := hi.isLt
    rw [mask, getLsbD_mask, rangeLength, ← Bool.decide_and, decide_eq_decide]
    omega
  rw [rangeGet, BitVec.getLsbD_and, BitVec.getLsbD_ushiftRight, hm, Bool.and_comm]

theorem getLsbD_rangeClear {hi lo : BitPos} (h : lo.toNat ≤ hi.toNat) (a : Word) (j : Nat) :
    (rangeClear a hi lo).getLsbD j = (!decide (lo.toNat ≤ j ∧ j ≤ hi.toNat) && a.getLsbD j) := by
  rw [rangeClear, BitVec.getLsbD_and, BitVec.getLsbD_not, getLsbD_rangeMask h]
  by_cases hj : j < 32
  · rw [decide_eq_true hj, Bool.true_and, Bool.and_comm]
  · rw [BitVec.getLsbD_of_ge a j (by omega), Bool.false_and, Bool.and_false]

/-- A value that fits the range (R85) has no bit that the move to `lo` takes past `hi`. -/
theorem getLsbD_of_fits {hi lo : BitPos} {b : Word} (hb : b.toNat < 2 ^ rangeLength hi lo) {j : Nat}
    (hj : rangeLength hi lo ≤ j) : b.getLsbD j = false :=
  Nat.testBit_lt_two_pow (hb.trans_le (Nat.pow_le_pow_right (by decide) hj))

theorem getLsbD_rangeSet {hi lo : BitPos} (h : lo.toNat ≤ hi.toNat) (a : Word) {b : Word}
    (hb : b.toNat < 2 ^ rangeLength hi lo) (j : Nat) :
    (rangeSet a b hi lo).getLsbD j = if lo.toNat ≤ j ∧ j ≤ hi.toNat then b.getLsbD (j - lo.toNat) else a.getLsbD j := by
  have hhi := hi.isLt
  rw [rangeSet, BitVec.getLsbD_or, getLsbD_rangeClear h, BitVec.getLsbD_shiftLeft]
  split
  next hin =>
    obtain ⟨hlo, hj⟩ := hin
    simp [hlo, hj, show j < 32 by omega]
  next hout =>
    rw [decide_eq_false hout, Bool.not_false, Bool.true_and]
    by_cases hlo : j < lo.toNat
    · simp [hlo]
    · have hfar : b.getLsbD (j - lo.toNat) = false := getLsbD_of_fits hb (by rw [rangeLength]; omega)
      rw [hfar, Bool.and_false, Bool.or_false]

/-! ### The laws of R87, as facts about those words -/

theorem rangeGet_fits (a : Word) (hi lo : BitPos) : (rangeGet a hi lo).toNat < 2 ^ rangeLength hi lo := by
  rw [rangeGet, BitVec.toNat_and]
  refine Nat.and_lt_two_pow _ ?_
  have hpos := Nat.two_pow_pos (rangeLength hi lo)
  have hmask : (mask (rangeLength hi lo)).toNat ≤ 2 ^ rangeLength hi lo - 1 := Nat.mod_le _ _
  omega

theorem rangeGet_rangeSet {hi lo : BitPos} (h : lo.toNat ≤ hi.toNat) (a : Word) {b : Word}
    (hb : b.toNat < 2 ^ rangeLength hi lo) : rangeGet (rangeSet a b hi lo) hi lo = b := by
  apply BitVec.eq_of_getLsbD_eq
  intro j _
  rw [getLsbD_rangeGet h, getLsbD_rangeSet h a hb]
  by_cases hj : lo.toNat + j ≤ hi.toNat
  · simp [hj]
  · have hfar : b.getLsbD j = false := getLsbD_of_fits hb (by rw [rangeLength]; omega)
    rw [hfar, decide_eq_false hj, Bool.false_and]

theorem rangeSet_rangeGet {hi lo : BitPos} (h : lo.toNat ≤ hi.toNat) (a : Word) :
    rangeSet a (rangeGet a hi lo) hi lo = a := by
  apply BitVec.eq_of_getLsbD_eq
  intro j _
  rw [getLsbD_rangeSet h a (rangeGet_fits a hi lo), getLsbD_rangeGet h]
  split
  next hin =>
    obtain ⟨hlo, hj⟩ := hin
    rw [Nat.add_sub_cancel' hlo, decide_eq_true hj, Bool.true_and]
  next => rfl

theorem rangeGet_rangeClear {hi lo : BitPos} (h : lo.toNat ≤ hi.toNat) (a : Word) :
    rangeGet (rangeClear a hi lo) hi lo = 0 := by
  apply BitVec.eq_of_getLsbD_eq
  intro j _
  rw [getLsbD_rangeGet h, getLsbD_rangeClear h]
  by_cases hj : lo.toNat + j ≤ hi.toNat <;> simp [hj]

theorem getLsbD_setBit (a : Word) (lo : BitPos) : (a ||| (1#32 <<< lo.toNat)).getLsbD lo.toNat = true := by
  simp [lo.isLt]

theorem getLsbD_clrBit (a : Word) (lo : BitPos) : (a &&& ~~~(1#32 <<< lo.toNat)).getLsbD lo.toNat = false := by
  simp

theorem ushiftRight_fits_addressField (a : Word) : (a >>> 12).toNat < 2 ^ rangeLength 31#5 12#5 := by
  have := a.isLt
  rw [BitVec.toNat_ushiftRight, Nat.shiftRight_eq_div_pow]
  exact Nat.div_lt_of_lt_mul this

theorem flags_fit_lowField (f : Flags) : (f.setWidth 32).toNat < 2 ^ rangeLength 2#5 0#5 := by
  rw [BitVec.toNat_setWidth_of_le (by decide)]
  exact f.isLt

/-- R87: an entry is the policy word 0x18 with its address field (bits 31:12) and its flags (bits 2:0) put in. -/
theorem makeEntry_eq_rangeSet {a : Word} (ha : aligned a = true) (f : Flags) :
    makeEntry a f = rangeSet (rangeSet 0x18#32 (a >>> 12) 31#5 12#5) (f.setWidth 32) 2#5 0#5 := by
  apply BitVec.eq_of_getLsbD_eq
  intro j hj
  rw [getLsbD_rangeSet (by decide) _ (flags_fit_lowField f),
    getLsbD_rangeSet (by decide) _ (ushiftRight_fits_addressField a), getLsbD_policy]
  simp only [BitVec.reduceToNat]
  by_cases h3 : j < 3
  · rw [getLsbD_makeEntry_low a ha f j h3, if_pos (by omega), Nat.sub_zero, BitVec.getLsbD_setWidth, decide_eq_true hj,
      Bool.true_and]
  rw [if_neg (by omega)]
  by_cases h12 : j < 12
  · rw [getLsbD_makeEntry_mid ha f (by omega) h12, if_neg (by omega)]
  · rw [if_pos (by omega), BitVec.getLsbD_ushiftRight, show 12 + (j - 12) = j by omega, getLsbD_makeEntry,
      decide_eq_false (by omega), BitVec.getLsbD_of_ge f j (by omega), Bool.or_false, Bool.or_false]

/-! ### What each command answers -/

theorem withRange_of_lt {hi lo : BitPos} (h : hi.toNat < lo.toNat) (s : State) (x : Result) :
    withRange hi lo s x = fail s .invalidArgument := if_pos h

theorem withRange_of_le {hi lo : BitPos} (h : lo.toNat ≤ hi.toNat) (s : State) (x : Result) : withRange hi lo s x = x :=
  if_neg (Nat.not_lt.mpr h)

/-- R85 tests the width of `b` below 32 bits only: every word fits the whole word. -/
theorem tooWide_iff (hi lo : BitPos) (b : Word) :
    (rangeLength hi lo < 32 ∧ 2 ^ rangeLength hi lo ≤ b.toNat) ↔ 2 ^ rangeLength hi lo ≤ b.toNat :=
  and_iff_right_of_imp fun h => (Nat.pow_lt_pow_iff_right (by decide)).mp (h.trans_lt b.isLt)

section
variable {s : State} (hf : s.pgState ≠ .fatal)
include hf

theorem exec_bfGetBit (a : Word) (lo : BitPos) : exec (.bfGetBit a lo) s = ok s (bitResult (a.getLsbD lo.toNat)) 0 :=
  unlessFatal_of_ne hf _

theorem exec_bfSetBit (a : Word) (lo : BitPos) : exec (.bfSetBit a lo) s = ok s (a ||| (1#32 <<< lo.toNat)) 0 :=
  unlessFatal_of_ne hf _

theorem exec_bfClrBit (a : Word) (lo : BitPos) : exec (.bfClrBit a lo) s = ok s (a &&& ~~~(1#32 <<< lo.toNat)) 0 :=
  unlessFatal_of_ne hf _

theorem exec_bfGetRange (a : Word) (hi lo : BitPos) :
    exec (.bfGetRange a hi lo) s = withRange hi lo s (ok s (rangeGet a hi lo) 0) :=
  unlessFatal_of_ne hf _

theorem exec_bfSetRange (a b : Word) (hi lo : BitPos) :
    exec (.bfSetRange a b hi lo) s = withRange hi lo s
      (if 2 ^ rangeLength hi lo ≤ b.toNat then fail s .invalidArgument else ok s (rangeSet a b hi lo) 0) := by
  rw [← if_congr (tooWide_iff hi lo b) rfl rfl]
  exact unlessFatal_of_ne hf _

theorem exec_bfClrRange (a : Word) (hi lo : BitPos) :
    exec (.bfClrRange a hi lo) s = withRange hi lo s (ok s (rangeClear a hi lo) 0) :=
  unlessFatal_of_ne hf _

theorem exec_entMake_of_aligned (kind : Kind) {a : Word} (ha : aligned a = true) (f : Flags) :
    exec (.entMake kind a f) s = ok s (makeEntry a f) 0 :=
  (unlessFatal_of_ne hf _).trans (if_pos ha)

theorem exec_bfGetRange_of_le {hi lo : BitPos} (h : lo.toNat ≤ hi.toNat) (a : Word) :
    exec (.bfGetRange a hi lo) s = ok s (rangeGet a hi lo) 0 :=
  (exec_bfGetRange hf a hi lo).trans (withRange_of_le h s _)

theorem exec_bfSetRange_of_fits {hi lo : BitPos} (h : lo.toNat ≤ hi.toNat) (a : Word) {b : Word}
    (hb : b.toNat < 2 ^ rangeLength hi lo) : exec (.bfSetRange a b hi lo) s = ok s (rangeSet a b hi lo) 0 := by
  rw [exec_bfSetRange hf, withRange_of_le h, if_neg (Nat.not_le.mpr hb)]

theorem exec_bfClrRange_of_le {hi lo : BitPos} (h : lo.toNat ≤ hi.toNat) (a : Word) :
    exec (.bfClrRange a hi lo) s = ok s (rangeClear a hi lo) 0 :=
  (exec_bfClrRange hf a hi lo).trans (withRange_of_le h s _)

end

/-! ### The claims -/

/-- Settles O1: the command's own equation, with the bit read as R81 writes it. -/
theorem singleBitUtilitiesAnswer : Obligations.SingleBitUtilitiesAnswer := by
  intro s a lo hf
  rw [← bitResult_getLsbD]
  exact ⟨exec_bfGetBit hf a lo, exec_bfSetBit hf a lo, exec_bfClrBit hf a lo⟩

/-- Settles O2. -/
theorem getRangeAnswers : Obligations.GetRangeAnswers := by
  intro s a hi lo hf
  refine ⟨fun h => (exec_bfGetRange hf a hi lo).trans (withRange_of_lt h s _), fun h => ?_⟩
  exact ⟨rangeGet a hi lo, exec_bfGetRange_of_le hf h a, rfl, getLsbD_rangeGet h a⟩

/-- Settles O3, by the three exclusive cases of R85. -/
theorem setRangeAnswers : Obligations.SetRangeAnswers := by
  intro s a b hi lo hf
  refine ⟨fun h => ?illFormed, fun h hb => ?tooWide, fun h hb => ?fits⟩
  case illFormed => exact (exec_bfSetRange hf a b hi lo).trans (withRange_of_lt h s _)
  case tooWide =>
    rw [exec_bfSetRange hf, withRange_of_le h]
    exact if_pos hb
  case fits => exact ⟨rangeSet a b hi lo, exec_bfSetRange_of_fits hf h a hb, rfl, getLsbD_rangeSet h a hb⟩

/-- Settles O4. -/
theorem clrRangeAnswers : Obligations.ClrRangeAnswers := by
  intro s a hi lo hf
  refine ⟨fun h => (exec_bfClrRange hf a hi lo).trans (withRange_of_lt h s _), fun h => ?_⟩
  exact ⟨rangeClear a hi lo, exec_bfClrRange_of_le hf h a, rfl, getLsbD_rangeClear h a⟩

/-- Settles O5: each law is the corresponding fact about words, carried through the commands' answers. -/
theorem rangeLaws : Obligations.RangeLaws := by
  intro s a b hi lo hf
  refine ⟨fun h hb => ⟨rangeSet a b hi lo, exec_bfSetRange_of_fits hf h a hb, ?getSet⟩,
    fun h => ⟨rangeGet a hi lo, exec_bfGetRange_of_le hf h a, ?setGet⟩,
    fun h => ⟨rangeClear a hi lo, exec_bfClrRange_of_le hf h a, ?getClear⟩,
    ⟨_, exec_bfSetBit hf a lo, ?getSetBit⟩, ⟨_, exec_bfClrBit hf a lo, ?getClrBit⟩,
    fun kind f ha => ⟨_, _, exec_bfSetRange_of_fits hf (by decide) _ (ushiftRight_fits_addressField a),
      exec_bfSetRange_of_fits hf (by decide) _ (flags_fit_lowField f), ?entMake⟩⟩
  case getSet =>
    rw [exec_bfGetRange_of_le hf h, rangeGet_rangeSet h a hb]
    rfl
  case setGet =>
    rw [exec_bfSetRange_of_fits hf h a (rangeGet_fits a hi lo), rangeSet_rangeGet h]
    rfl
  case getClear =>
    rw [exec_bfGetRange_of_le hf h, rangeGet_rangeClear h]
    rfl
  case getSetBit =>
    rw [exec_bfGetBit hf, getLsbD_setBit]
    rfl
  case getClrBit =>
    rw [exec_bfGetBit hf, getLsbD_clrBit]
    rfl
  case entMake =>
    have haligned : aligned a = true := beq_iff_eq.mpr ha
    rw [exec_entMake_of_aligned hf kind haligned, makeEntry_eq_rangeSet haligned]
    rfl

end Sys2Proof.Machine
end

section
/-! PROOF. The entry encoder's pure forms (spec/41_entry.md R90 to R105): the fields of a made entry, what forcing one flag does
to a word, what the pure commands answer, and the laws, which are facts about those words. -/

namespace Sys2Proof.Machine

/-! ### The fields of a made entry (R90) -/

theorem getLsbD_makeEntry_high (a : Word) (f : Flags) {j : Nat} (h : 12 ≤ j) : (makeEntry a f).getLsbD j = a.getLsbD j := by
  rw [getLsbD_makeEntry, decide_eq_false (by omega), BitVec.getLsbD_of_ge f j (by omega), Bool.or_false, Bool.or_false]

theorem extractLsb'_makeEntry_address (a : Word) (f : Flags) :
    (makeEntry a f).extractLsb' 12 20 = a.extractLsb' 12 20 := by
  apply BitVec.eq_of_getLsbD_eq
  intro j _
  rw [BitVec.getLsbD_extractLsb', BitVec.getLsbD_extractLsb', getLsbD_makeEntry_high a f (Nat.le_add_right 12 j)]

theorem extractLsb'_makeEntry_reserved {a : Word} (ha : aligned a = true) (f : Flags) :
    (makeEntry a f).extractLsb' 8 4 = 0#4 := by
  apply BitVec.eq_of_getLsbD_eq
  intro j hj
  rw [BitVec.getLsbD_extractLsb', getLsbD_makeEntry_mid ha f (by omega) (by omega),
    decide_eq_false (p := 8 + j = 3 ∨ 8 + j = 4) (by omega), Bool.and_false, BitVec.getLsbD_zero]

theorem extractLsb'_makeEntry_flag {a : Word} (ha : aligned a = true) (f : Flags) {n : Nat} (hn : n < 3) :
    (makeEntry a f).extractLsb' n 1 = f.extractLsb' n 1 := by
  apply BitVec.eq_of_getLsbD_eq
  intro j hj
  rw [BitVec.getLsbD_extractLsb', BitVec.getLsbD_extractLsb', getLsbD_makeEntry_low a ha f (n + j) (by omega)]

/-- R92 reads an aligned address back: its low 12 bits are those that the appended zeros give. -/
theorem addressOf_eq_of_aligned {a : Word} (ha : aligned a = true) : addressOf a = a := by
  apply BitVec.eq_of_getLsbD_eq
  intro j hj
  rw [addressOf, BitVec.getLsbD_append]
  split
  next hlow =>
    rw [BitVec.getLsbD_zero, (aligned_iff a).mp ha j hlow]
  next hhigh =>
    rw [BitVec.getLsbD_extractLsb', decide_eq_true (by omega), Bool.true_and, show 12 + (j - 12) = j by omega]

theorem addressOf_makeEntry {a : Word} (ha : aligned a = true) (f : Flags) : addressOf (makeEntry a f) = a := by
  rw [addressOf, extractLsb'_makeEntry_address]
  exact addressOf_eq_of_aligned ha

theorem accessor_eq_extractLsb' (b : EntryBit) (w : Word) :
    accessor b w = (w.extractLsb' (entryBitPos b) 1).setWidth 32 := accessor_bit b w

theorem accessor_makeEntry_of_flag {a : Word} (ha : aligned a = true) (f : Flags) (b : EntryBit) (hb : entryBitPos b < 3) :
    accessor b (makeEntry a f) = (f.extractLsb' (entryBitPos b) 1).setWidth 32 := by
  rw [accessor_eq_extractLsb', extractLsb'_makeEntry_flag ha f hb]

/-- Accessed and dirty are 0 in a made entry: bits 11:5 are. -/
theorem accessor_makeEntry_eq_zero {a : Word} (ha : aligned a = true) (f : Flags) (b : EntryBit)
    (h5 : 5 ≤ entryBitPos b) (h12 : entryBitPos b < 12) : accessor b (makeEntry a f) = 0 := by
  rw [accessor, flagOf, getLsbD_makeEntry_mid ha f (by omega) h12, decide_eq_false (by omega)]
  rfl

/-! ### Forcing one flag (R98 to R104) -/

/-- The entry word with the flag forced to v. -/
def flagForce (b : EntryBit) (v : Bool) (w : Word) : Word := if v then flagSet b w else flagClear b w

theorem getLsbD_flagForce (b : EntryBit) (v : Bool) (w : Word) (j : Nat) :
    (flagForce b v w).getLsbD j = if j = entryBitPos b then v else w.getLsbD j := by
  cases v with
  | true =>
    refine (getLsbD_flagSet b w j).trans ?_
    by_cases hj : j = entryBitPos b <;> simp [hj]
  | false =>
    refine (getLsbD_flagClear b w j).trans ?_
    by_cases hj : j = entryBitPos b <;> simp [hj]

/-- R105: no bit is forced by both, so the order does not matter. -/
theorem flagForce_comm {b b' : EntryBit} (h : entryBitPos b ≠ entryBitPos b') (v v' : Bool) (w : Word) :
    flagForce b v (flagForce b' v' w) = flagForce b' v' (flagForce b v w) := by
  apply BitVec.eq_of_getLsbD_eq
  intro j _
  simp only [getLsbD_flagForce]
  by_cases hj : j = entryBitPos b
  · rw [if_pos hj, if_neg (hj ▸ h), if_pos hj]
  · rw [if_neg hj, if_neg hj]

/-! ### What each command answers -/

section
variable {s : State} (hf : s.pgState ≠ .fatal)
include hf

theorem pureForm_of_ne (g : Word → Word) (a : Word) : pureForm g a s = ok s (g a) 0 := unlessFatal_of_ne hf _

theorem exec_entMake_of_not_aligned (kind : Kind) {a : Word} (ha : ¬ aligned a = true) (f : Flags) :
    exec (.entMake kind a f) s = fail s .alignmentViolation :=
  (unlessFatal_of_ne hf _).trans (if_neg ha)

theorem exec_entGetAddress (kind : Kind) (a : Word) : exec (.entGetAddress kind a) s = ok s (addressOf a) 0 :=
  pureForm_of_ne hf _ a

theorem exec_entIsPresent (kind : Kind) (a : Word) : exec (.entIsPresent kind a) s = ok s (accessor .present a) 0 :=
  pureForm_of_ne hf _ a

theorem exec_entIsWriteable (kind : Kind) (a : Word) : exec (.entIsWriteable kind a) s = ok s (accessor .writable a) 0 :=
  pureForm_of_ne hf _ a

theorem exec_entCanUserAccess (kind : Kind) (a : Word) :
    exec (.entCanUserAccess kind a) s = ok s (accessor .userAccessible a) 0 :=
  pureForm_of_ne hf _ a

theorem exec_entWasAccessed (kind : Kind) (a : Word) : exec (.entWasAccessed kind a) s = ok s (accessor .accessed a) 0 :=
  pureForm_of_ne hf _ a

theorem exec_entIsDirty_pte (a : Word) : exec (.entIsDirty .pte a) s = ok s (accessor .dirty a) 0 := unlessFatal_of_ne hf _

theorem exec_entIsDirty_pde (a : Word) : exec (.entIsDirty .pde a) s = fail s .illegalOp := unlessFatal_of_ne hf _

end

/-- The command m answers with its operand word, the bit it names forced to the value it names. -/
def ForcesItsBit (m : (Kind → Word → Instr) × Nat × Bool) : Prop :=
  ∃ b : EntryBit, entryBitPos b = m.2.1 ∧
    ∀ (s : State) (kind : Kind) (w : Word), s.pgState ≠ .fatal → exec (m.1 kind w) s = ok s (flagForce b m.2.2 w) 0

/-- R98 to R104, once for the seven mutators. -/
theorem forcesItsBit_of_mem_pureMutators : ∀ m ∈ pureMutators, ForcesItsBit m := by
  simp only [pureMutators, List.forall_mem_cons]
  exact ⟨⟨.present, rfl, fun _ _ w hf => pureForm_of_ne hf (flagSet .present) w⟩,
    ⟨.present, rfl, fun _ _ w hf => pureForm_of_ne hf (flagClear .present) w⟩,
    ⟨.writable, rfl, fun _ _ w hf => pureForm_of_ne hf (flagSet .writable) w⟩,
    ⟨.writable, rfl, fun _ _ w hf => pureForm_of_ne hf (flagClear .writable) w⟩,
    ⟨.userAccessible, rfl, fun _ _ w hf => pureForm_of_ne hf (flagSet .userAccessible) w⟩,
    ⟨.userAccessible, rfl, fun _ _ w hf => pureForm_of_ne hf (flagClear .userAccessible) w⟩,
    ⟨.accessed, rfl, fun _ _ w hf => pureForm_of_ne hf (flagClear .accessed) w⟩, nofun⟩

theorem ForcesItsBit.answer {m : (Kind → Word → Instr) × Nat × Bool} (h : ForcesItsBit m) {s : State} (kind : Kind)
    (w : Word) (hf : s.pgState ≠ .fatal) :
    ∃ w' : Word, exec (m.1 kind w) s = ok s w' 0 ∧ ∀ j, w'.getLsbD j = if j = m.2.1 then m.2.2 else w.getLsbD j := by
  obtain ⟨b, hb, hm⟩ := h
  exact ⟨flagForce b m.2.2 w, hm s kind w hf, hb ▸ getLsbD_flagForce b m.2.2 w⟩

theorem ForcesItsBit.comm {m m' : (Kind → Word → Instr) × Nat × Bool} (h : ForcesItsBit m) (h' : ForcesItsBit m')
    (hne : m.2.1 ≠ m'.2.1) {s : State} (kind : Kind) (w : Word) (hf : s.pgState ≠ .fatal) :
    ∃ x y z : Word, exec (m.1 kind w) s = ok s x 0 ∧ exec (m'.1 kind w) s = ok s y 0 ∧
      exec (m'.1 kind x) s = ok s z 0 ∧ exec (m.1 kind y) s = ok s z 0 := by
  obtain ⟨b, hb, hm⟩ := h
  obtain ⟨b', hb', hm'⟩ := h'
  have hcomm := flagForce_comm (b := b) (b' := b') (by rwa [hb, hb']) m.2.2 m'.2.2 w
  exact ⟨_, _, _, hm s kind w hf, hm' s kind w hf, hm' s kind _ hf, hcomm ▸ hm s kind _ hf⟩

/-! ### The claims -/

/-- Settles O7: each accessor's own equation, with the flag read as R93 to R96 write it. -/
theorem pureAccessorsAnswer : Obligations.PureAccessorsAnswer := by
  intro s kind a hf
  simp only [exec_entIsPresent hf, exec_entIsWriteable hf, exec_entCanUserAccess hf, exec_entWasAccessed hf,
    accessor_eq_extractLsb']
  exact ⟨exec_entGetAddress hf kind a, rfl, rfl, rfl, rfl⟩

/-- Settles O8, by the two kinds. -/
theorem pureDirtyAccessorAnswers : Obligations.PureDirtyAccessorAnswers := by
  intro s a hf
  rw [exec_entIsDirty_pte hf, accessor_eq_extractLsb']
  exact ⟨rfl, exec_entIsDirty_pde hf a⟩

/-- Settles O9: the rules' masks are the flags' own, and their complements. -/
theorem pureMutatorsAnswer : Obligations.PureMutatorsAnswer := fun _ _ a hf =>
  ⟨pureForm_of_ne hf (flagSet .present) a, pureForm_of_ne hf (flagClear .present) a,
    pureForm_of_ne hf (flagSet .writable) a, pureForm_of_ne hf (flagClear .writable) a,
    pureForm_of_ne hf (flagSet .userAccessible) a, pureForm_of_ne hf (flagClear .userAccessible) a,
    pureForm_of_ne hf (flagClear .accessed) a⟩

/-- Settles O6: an aligned address gives the made entry, whose fields are read off R90's bits. -/
theorem entryIsMadeFieldByField : Obligations.EntryIsMadeFieldByField := by
  intro s kind a f hf
  refine ⟨fun ha => exec_entMake_of_not_aligned hf kind (mt beq_iff_eq.mp ha) f, fun h => ?_⟩
  have ha : aligned a = true := beq_iff_eq.mpr h
  have hlow : ∀ j < 3, (makeEntry a f).getLsbD j = f.getLsbD j := getLsbD_makeEntry_low a ha f
  have hmid : ∀ j, 3 ≤ j → j < 12 → (makeEntry a f).getLsbD j = decide (j = 3 ∨ j = 4) :=
    fun _ h3 h12 => getLsbD_makeEntry_mid ha f h3 h12
  exact ⟨makeEntry a f, exec_entMake_of_aligned hf kind ha f, rfl, extractLsb'_makeEntry_address a f,
    extractLsb'_makeEntry_reserved ha f, hmid 7 (by decide) (by decide), hmid 6 (by decide) (by decide),
    hmid 5 (by decide) (by decide), hmid 4 (by decide) (by decide), hmid 3 (by decide) (by decide),
    hlow 2 (by decide), hlow 1 (by decide), hlow 0 (by decide)⟩

/-- Settles O10: the mutators' laws are those of forcing a flag, and the accessors read back the made entry's fields. -/
theorem entryLaws : Obligations.EntryLaws := by
  refine ⟨fun s kind w hf m hm => (forcesItsBit_of_mem_pureMutators m hm).answer kind w hf,
    fun s kind w hf m hm m' hm' hne =>
      (forcesItsBit_of_mem_pureMutators m hm).comm (forcesItsBit_of_mem_pureMutators m' hm') hne kind w hf,
    fun s kind a f hf h => ?readBack⟩
  case readBack =>
    have ha : aligned a = true := beq_iff_eq.mpr h
    refine ⟨makeEntry a f, exec_entMake_of_aligned hf kind ha f, ?_⟩
    rw [exec_entGetAddress hf, exec_entIsPresent hf, exec_entIsWriteable hf, exec_entCanUserAccess hf,
      exec_entWasAccessed hf, exec_entIsDirty_pte hf, addressOf_makeEntry ha,
      accessor_makeEntry_of_flag ha f .present (by decide), accessor_makeEntry_of_flag ha f .writable (by decide),
      accessor_makeEntry_of_flag ha f .userAccessible (by decide),
      accessor_makeEntry_eq_zero ha f .accessed (by decide) (by decide),
      accessor_makeEntry_eq_zero ha f .dirty (by decide) (by decide)]
    exact ⟨rfl, rfl, rfl, rfl, rfl, rfl⟩

end Sys2Proof.Machine
end

section
/-! PROOF. The containers (spec/42_container.md R109 to R127): the prologue of the stored forms, what each command answers in
every state but FATAL, the frame of a stored word, and the laws, which read back what was written. -/

namespace Sys2Proof.Machine

/-! ### The index and the slot (R41, R113) -/

theorem setWidth_of_toNat_eq {a : Word} {i : Index} (h : a.toNat = i.toNat) : a.setWidth 10 = i := by
  apply BitVec.eq_of_toNat_eq
  rw [BitVec.toNat_setWidth, h, Nat.mod_eq_of_lt i.isLt]

theorem lt_of_toNat_eq {a : Word} {i : Index} (h : a.toNat = i.toNat) : a.toNat < 1024 := h ▸ i.isLt

theorem withIndex_of_lt {a : Word} (h : a.toNat < 1024) (s : State) (answer : Index → Result) :
    withIndex a s answer = answer (a.setWidth 10) := by simp only [withIndex, slotIndex_of_lt h]

theorem withIndex_of_ge {a : Word} (h : 1024 ≤ a.toNat) (s : State) (answer : Index → Result) :
    withIndex a s answer = fail s .indexOutOfRange := by simp only [withIndex, slotIndex_of_ge h]

/-- The three cases of R113's prologue, with the slot named by its number. -/
theorem withSlot_cases (u : UnitSel) (a : Word) (s : State) (answer : Index → Word → Result) :
    (1024 ≤ a.toNat → withSlot u a s answer = fail s .indexOutOfRange) ∧
    (∀ i : Index, a.toNat = i.toNat → entRead s u i = none → withSlot u a s answer = fail s .unwritten) ∧
    (∀ (i : Index) (w : Word), a.toNat = i.toNat → entRead s u i = some w → withSlot u a s answer = answer i w) := by
  refine ⟨withSlot_of_index answer, fun i hi hw => ?_, fun i w hi hw => ?_⟩
  · obtain rfl := setWidth_of_toNat_eq hi
    exact withSlot_of_unwritten answer (lt_of_toNat_eq hi) hw
  · obtain rfl := setWidth_of_toNat_eq hi
    exact withSlot_of_entry answer (lt_of_toNat_eq hi) hw

/-! ### The frame of a stored word (R44) -/

theorem storedOne_entWrite (s : State) (u : UnitSel) (i : Index) (w : Word) (st : Status) (r r2 : Word) :
    StoredOne s (respond (entWrite s u i w) st r r2) u i w := by
  refine ⟨by simp [SameControl], by simp [SameOutside], fun u' i' => ?_⟩
  rw [entRead_respond, entRead_entWrite]

/-! ### The words CT_INIT writes (R110) -/

theorem initWord_eq_fields (mode : InitMode) (f : Flags) (b : Word) (i : Nat) :
    initWord mode f b i =
      (if mode = .linear then BitVec.ofNat 32 (i * 4096 + b.toNat) else 0) ||| 0x18#32 ||| f.setWidth 32 := by
  cases mode <;> rfl

theorem initWord_zeroed (f : Flags) (b : Word) (i : Nat) : initWord .zeroed f b i = 0x18#32 ||| f.setWidth 32 := by
  rw [initWord, makeEntry, BitVec.ofNat_eq_ofNat, BitVec.zero_or]

theorem ofNat_linear_address (a b : Word) : BitVec.ofNat 32 (a.toNat * 4096 + b.toNat) = a * 4096 + b := by
  apply BitVec.eq_of_toNat_eq
  simp

theorem initWord_linear (f : Flags) (a b : Word) : initWord .linear f b a.toNat = makeEntry (a * 4096 + b) f :=
  congrArg (makeEntry · f) (ofNat_linear_address a b)

theorem aligned_linear_address (a : Word) {b : Word} (hb : aligned b = true) : aligned (a * 4096 + b) = true :=
  ofNat_linear_address a b ▸ aligned_ofNat_mul a.toNat b hb

/-! ### What each command answers -/

section
variable {s : State} (hf : s.pgState ≠ .fatal)
include hf

theorem exec_ctInit_of_not_aligned (kind : Kind) (tsel : Index) (f : Flags) {b : Word} (hb : ¬ aligned b = true) :
    exec (.ctInit kind tsel .linear f b) s = fail s .alignmentViolation :=
  (unlessFatal_of_ne hf _).trans (if_pos (by simpa using hb))

theorem exec_ctInit_of_above (kind : Kind) (tsel : Index) (f : Flags) {b : Word} (hb : aligned b = true)
    (habove : maxLinearBase < b.toNat) : exec (.ctInit kind tsel .linear f b) s = fail s .addressOutOfRange :=
  (unlessFatal_of_ne hf _).trans ((if_neg (by simpa using hb)).trans (if_pos habove))

theorem exec_ctInit_of_accepted (kind : Kind) (tsel : Index) {mode : InitMode} (f : Flags) {b : Word}
    (hb : mode = .linear → aligned b = true ∧ b.toNat ≤ maxLinearBase) :
    exec (.ctInit kind tsel mode f b) s = ok (entFill s (namedUnit kind tsel) (initWord mode f b)) 0 0 := by
  rw [← selectUnit_eq_namedUnit]
  refine (unlessFatal_of_ne hf _).trans ?_
  cases mode with
  | zeroed => rfl
  | linear =>
    obtain ⟨haligned, hle⟩ := hb rfl
    exact (if_neg (by simpa using haligned)).trans (if_neg (Nat.not_lt.mpr hle))

theorem exec_ctPut (kind : Kind) (tsel : Index) (a b : Word) (f : Flags) :
    exec (.ctPut kind tsel a b f) s = withIndex a s fun i =>
      if aligned b then ok (entWrite s (namedUnit kind tsel) i (makeEntry b f)) 0 0 else fail s .alignmentViolation := by
  rw [← selectUnit_eq_namedUnit]
  exact unlessFatal_of_ne hf _

theorem exec_ctPut_of_aligned (kind : Kind) (tsel : Index) {a b : Word} (f : Flags) (ha : a.toNat < 1024)
    (hb : aligned b = true) : exec (.ctPut kind tsel a b f) s =
      ok (entWrite s (namedUnit kind tsel) (a.setWidth 10) (makeEntry b f)) 0 0 := by
  rw [exec_ctPut hf, withIndex_of_lt ha, if_pos hb]

theorem exec_ctGet (kind : Kind) (tsel : Index) (a : Word) :
    exec (.ctGet kind tsel a) s = storedAccessor id (namedUnit kind tsel) a s := by
  rw [← selectUnit_eq_namedUnit]
  exact unlessFatal_of_ne hf _

theorem exec_ctGetAddress (kind : Kind) (tsel : Index) (a : Word) :
    exec (.ctGetAddress kind tsel a) s = storedAccessor addressOf (namedUnit kind tsel) a s := by
  rw [← selectUnit_eq_namedUnit]
  exact unlessFatal_of_ne hf _

theorem exec_ctGet_of_read (kind : Kind) (tsel : Index) {a w : Word} (ha : a.toNat < 1024)
    (hw : entRead s (namedUnit kind tsel) (a.setWidth 10) = some w) : exec (.ctGet kind tsel a) s = ok s w 0 :=
  (exec_ctGet hf kind tsel a).trans (withSlot_of_entry _ ha hw)

theorem exec_ctGetAddress_of_read (kind : Kind) (tsel : Index) {a w : Word} (ha : a.toNat < 1024)
    (hw : entRead s (namedUnit kind tsel) (a.setWidth 10) = some w) :
    exec (.ctGetAddress kind tsel a) s = ok s (addressOf w) 0 :=
  (exec_ctGetAddress hf kind tsel a).trans (withSlot_of_entry _ ha hw)

theorem exec_ctIsDirty_pde (tsel : Index) (a : Word) : exec (.ctIsDirty .pde tsel a) s = fail s .illegalOp :=
  unlessFatal_of_ne hf _

theorem exec_ctIsDirty_pte (tsel : Index) (a : Word) :
    exec (.ctIsDirty .pte tsel a) s = storedAccessor (accessor .dirty) (.tbl tsel) a s :=
  unlessFatal_of_ne hf _

end

/-- The command m answers as the stored accessor of its result. -/
def ReadsTheSlot (m : (Kind → Index → Word → Instr) × (Word → Word)) : Prop :=
  ∀ (s : State) (kind : Kind) (tsel : Index) (a : Word), s.pgState ≠ .fatal →
    exec (m.1 kind tsel a) s = storedAccessor m.2 (namedUnit kind tsel) a s

/-- The command m answers as the stored mutator of what it stores. -/
def RewritesTheSlot (m : (Kind → Index → Word → Instr) × (Word → Word)) : Prop :=
  ∀ (s : State) (kind : Kind) (tsel : Index) (a : Word), s.pgState ≠ .fatal →
    exec (m.1 kind tsel a) s = storedMutator m.2 (namedUnit kind tsel) a s

theorem readsTheSlot_of_accessor {m : Kind → Index → Word → Instr} (b : EntryBit)
    (h : ∀ s kind tsel a, exec (m kind tsel a) s =
      unlessFatal s (storedAccessor (accessor b) (selectUnit kind tsel) a s)) :
    ReadsTheSlot (m, fun w => (w.extractLsb' (entryBitPos b) 1).setWidth 32) := by
  intro s kind tsel a hf
  have hresult : accessor b = fun w => (w.extractLsb' (entryBitPos b) 1).setWidth 32 :=
    funext (accessor_eq_extractLsb' b)
  rw [h, unlessFatal_of_ne hf, hresult, selectUnit_eq_namedUnit]

theorem rewritesTheSlot_of_exec {m : Kind → Index → Word → Instr} {g : Word → Word}
    (h : ∀ s kind tsel a, exec (m kind tsel a) s = unlessFatal s (storedMutator g (selectUnit kind tsel) a s)) :
    RewritesTheSlot (m, g) := by
  intro s kind tsel a hf
  rw [h, unlessFatal_of_ne hf, selectUnit_eq_namedUnit]

/-- R114 to R118, once for the five accessors. -/
theorem readsTheSlot_of_mem_storedAccessors : ∀ m ∈ storedAccessors, ReadsTheSlot m := by
  simp only [storedAccessors, List.forall_mem_cons]
  exact ⟨fun _ kind tsel a hf => exec_ctGetAddress hf kind tsel a,
    readsTheSlot_of_accessor .present fun _ _ _ _ => rfl, readsTheSlot_of_accessor .writable fun _ _ _ _ => rfl,
    readsTheSlot_of_accessor .userAccessible fun _ _ _ _ => rfl, readsTheSlot_of_accessor .accessed fun _ _ _ _ => rfl,
    nofun⟩

/-- R120 to R126, once for the seven mutators: the rules' masks are the flags' own, and their complements. -/
theorem rewritesTheSlot_of_mem_storedMutators : ∀ m ∈ storedMutators, RewritesTheSlot m := by
  simp only [storedMutators, List.forall_mem_cons]
  exact ⟨rewritesTheSlot_of_exec (g := flagSet .present) fun _ _ _ _ => rfl,
    rewritesTheSlot_of_exec (g := flagClear .present) fun _ _ _ _ => rfl,
    rewritesTheSlot_of_exec (g := flagSet .writable) fun _ _ _ _ => rfl,
    rewritesTheSlot_of_exec (g := flagClear .writable) fun _ _ _ _ => rfl,
    rewritesTheSlot_of_exec (g := flagSet .userAccessible) fun _ _ _ _ => rfl,
    rewritesTheSlot_of_exec (g := flagClear .userAccessible) fun _ _ _ _ => rfl,
    rewritesTheSlot_of_exec (g := flagClear .accessed) fun _ _ _ _ => rfl, nofun⟩

/-- A command that is no paging command leaves the control state, the parameters and the inputs (R29, R109). -/
theorem CommandEffect.sameControl_sameOutside {s t : State} {i : Instr} (h : CommandEffect s i t)
    (hi : isPaging i = false) : SameControl s t ∧ SameOutside s t := by
  cases h with
  | answered | flagSet | flagClear | put | init => simp [SameControl, SameOutside]
  | make | map | load | enable | enableFatal | disable | destroy => cases hi

/-! ### The claims -/

/-- Settles O11, by the three exclusive cases of R110. -/
theorem initFillsTheUnit : Obligations.InitFillsTheUnit := by
  intro s kind tsel mode f b hf
  refine ⟨?notAligned, ?above, fun h => ?accepted⟩
  case notAligned =>
    rintro rfl hb
    exact exec_ctInit_of_not_aligned hf kind tsel f (mt beq_iff_eq.mp hb)
  case above =>
    rintro rfl hb habove
    exact exec_ctInit_of_above hf kind tsel f (beq_iff_eq.mpr hb) habove
  case accepted =>
    have hb : mode = .linear → aligned b = true ∧ b.toNat ≤ maxLinearBase := by
      rintro rfl
      obtain h | ⟨-, hb, hle⟩ := h
      · cases h
      · exact ⟨beq_iff_eq.mpr hb, hle⟩
    refine ⟨_, exec_ctInit_of_accepted hf kind tsel f hb, rfl, by simp [SameControl], by simp [SameOutside],
      fun u i => ?_⟩
    rw [entRead_respond, entRead_entFill, initWord_eq_fields]

/-- Settles O12. -/
theorem getReadsTheSlot : Obligations.GetReadsTheSlot := by
  intro s kind tsel a hf
  rw [exec_ctGet hf]
  exact withSlot_cases (namedUnit kind tsel) a s _

/-- Settles O13: the index is checked before the address. -/
theorem putStoresAFreshEntry : Obligations.PutStoresAFreshEntry := by
  intro s kind tsel a b f hf
  refine ⟨fun ha => ?badIndex, fun ha hb => ?notAligned, fun i hi hb => ?stored⟩
  case badIndex => exact (exec_ctPut hf kind tsel a b f).trans (withIndex_of_ge ha s _)
  case notAligned =>
    rw [exec_ctPut hf, withIndex_of_lt ha]
    exact if_neg (mt beq_iff_eq.mp hb)
  case stored =>
    obtain rfl := setWidth_of_toNat_eq hi
    exact ⟨_, exec_ctPut_of_aligned hf kind tsel f (lt_of_toNat_eq hi) (beq_iff_eq.mpr hb), rfl,
      storedOne_entWrite s _ _ _ _ _ _⟩

/-- Settles O14: each command is a stored accessor, and R113's prologue has three cases. -/
theorem storedAccessorsAnswer : Obligations.StoredAccessorsAnswer := by
  intro m hm s kind tsel a hf
  rw [readsTheSlot_of_mem_storedAccessors m hm s kind tsel a hf]
  exact withSlot_cases (namedUnit kind tsel) a s _

/-- Settles O15: on the directory the kind decides before the index is looked at. -/
theorem storedDirtyAccessorAnswers : Obligations.StoredDirtyAccessorAnswers := by
  intro s tsel a hf
  obtain ⟨hindex, hunwritten, hwritten⟩ := withSlot_cases (.tbl tsel) a s fun _ w => ok s (accessor .dirty w) 0
  rw [exec_ctIsDirty_pte hf]
  refine ⟨exec_ctIsDirty_pde hf tsel a, hindex, hunwritten, fun i w hi hw => ?_⟩
  exact (hwritten i w hi hw).trans (congrArg (ok s · 0) (accessor_eq_extractLsb' .dirty w))

/-- Settles O16: each command is a stored mutator, and its write touches the named slot alone. -/
theorem storedMutatorsWriteTheSlot : Obligations.StoredMutatorsWriteTheSlot := by
  intro m hm s kind tsel a hf
  rw [rewritesTheSlot_of_mem_storedMutators m hm s kind tsel a hf]
  obtain ⟨hindex, hunwritten, hwritten⟩ := withSlot_cases (namedUnit kind tsel) a s
    fun i w => ok (entWrite s (namedUnit kind tsel) i (m.2 w)) 0 0
  exact ⟨hindex, hunwritten, fun i w hi hw => ⟨_, hwritten i w hi hw, rfl, storedOne_entWrite s _ i _ _ _ _⟩⟩

/-- Settles O17: a read after an accepted initialization, or after a put, finds the word that was written. -/
theorem containerLaws : Obligations.ContainerLaws := by
  intro s kind tsel f b hf
  have hinit : ∀ (mode : InitMode) (a : Word), a.toNat < 1024 →
      entRead (respond (entFill s (namedUnit kind tsel) (initWord mode f b)) .ok 0 0) (namedUnit kind tsel)
        (a.setWidth 10) = some (initWord mode f b a.toNat) := by
    intro mode a ha
    rw [entRead_respond, entRead_entFill, if_pos rfl, BitVec.toNat_setWidth, Nat.mod_eq_of_lt ha]
  refine ⟨fun h hle => ?linear, ?zeroed, fun h a ha => ?put⟩
  case linear =>
    have hb : aligned b = true := beq_iff_eq.mpr h
    refine ⟨_, exec_ctInit_of_accepted hf kind tsel f fun _ => ⟨hb, hle⟩, fun a ha => ?_⟩
    have hread := hinit .linear a ha
    rw [initWord_linear] at hread
    have haddr := exec_ctGetAddress_of_read (by simpa using hf) kind tsel ha hread
    rw [addressOf_makeEntry (aligned_linear_address a hb)] at haddr
    exact ⟨haddr, exec_ctGet_of_read (by simpa using hf) kind tsel ha hread⟩
  case zeroed =>
    refine ⟨_, exec_ctInit_of_accepted hf kind tsel f nofun, fun a ha => ?_⟩
    have hread := hinit .zeroed a ha
    rw [initWord_zeroed] at hread
    exact exec_ctGet_of_read (by simpa using hf) kind tsel ha hread
  case put =>
    refine ⟨_, exec_ctPut_of_aligned hf kind tsel f ha (beq_iff_eq.mpr h), ?_⟩
    refine exec_ctGet_of_read (by simpa using hf) kind tsel ha ?_
    rw [entRead_respond, entRead_entWrite_same]
    rfl

/-- Settles O18: the command is answered, and what it can have done is no move of the control state. -/
theorem otherCommandsKeepTheControlState : Obligations.OtherCommandsKeepTheControlState := by
  intro i s hi hf
  obtain ⟨t, ht, ⟨-, rfl, -⟩ | ⟨resp, hresp, -⟩⟩ := exec_answers i hf
  · cases hi
  · exact ⟨t, ht, by simp [hresp], (exec_effect ht).sameControl_sameOutside hi⟩

end Sys2Proof.Machine
end

section
/-! PROOF. What ENABLED and LOADED say of `loaded_base`, `paging_on` and the events (spec/43_paging.md R141 item 5), along a
step: the states before load ask only that paging is off, LOADED asks for the handed-over directory besides, and an `Enable`
appended to events that hold its `Load` comes after it. -/

namespace Sys2Proof.Machine

theorem loadBeforeLastEnable_append_enable {base : Word} {es : List HwEvent} (h : HwEvent.load base ∈ es) :
    LoadBeforeLastEnable base (es ++ [.enable]) := by
  obtain ⟨pre, mid, rfl⟩ := List.append_of_mem h
  exact ⟨pre, mid, [], by simp, by simp⟩

/-- The invariant looks at the control state and `DIR_ADDR` only. -/
theorem ControlOk.of_sameControl {s t : State} (hs : ControlOk s) (hc : SameControl s t) (hp : t.params = s.params) :
    ControlOk t := by
  obtain ⟨hstate, hbase, hon, hevents⟩ := hc
  constructor
  · rw [hon, hstate]
    exact hs.pagingOn_iff
  · rw [hbase, hstate, hp]
    exact hs.loadedBase_eq
  · rw [hevents, hstate, hp]
    exact hs.load_mem
  · rw [hevents, hstate, hp]
    exact hs.load_before_enable

/-- Before load nothing is asked but that paging is off. -/
theorem controlOk_of_unloaded {s : State} (hstate : s.pgState = .uninitialized ∨ s.pgState = .built)
    (hoff : s.pagingOn = false) : ControlOk s := by
  constructor <;> rcases hstate with h | h <;> simp [h, hoff]

theorem controlOk_of_loaded {s : State} (hstate : s.pgState = .loaded) (hoff : s.pagingOn = false)
    (hbase : s.loadedBase = some (dirAddr s.params)) (hload : HwEvent.load (dirAddr s.params) ∈ s.hwEvents) :
    ControlOk s := by
  constructor <;> simp [hstate, hoff, hbase, hload]

theorem ControlOk.pagingOn_eq_false {s : State} (hs : ControlOk s) (hf : s.pgState ≠ .fatal) (he : s.pgState ≠ .enabled) :
    s.pagingOn = false := by
  have h : ¬ s.pagingOn = true := fun hon => (hs.pagingOn_iff.mp hon).elim he hf
  simpa using h

theorem CommandEffect.controlOk {s t : State} {i : Instr} (h : CommandEffect s i t) (hf : s.pgState ≠ .fatal)
    (hs : ControlOk s) : ControlOk t := by
  cases h with
  | answered | flagSet | flagClear | put | init | map => exact hs.of_sameControl (by simp [SameControl]) (by simp)
  | make f g mode hun => exact controlOk_of_unloaded (.inr rfl) (hs.pagingOn_eq_false hf (by simp [hun]))
  | load hbl =>
    have he : s.pgState ≠ .enabled := by rcases hbl with h | h <;> simp [h]
    exact controlOk_of_loaded rfl (hs.pagingOn_eq_false hf he) rfl (by simp)
  | enable hle =>
    have hload := hs.load_mem hle
    exact ⟨by simp, fun _ => hs.loadedBase_eq hle, fun _ => List.mem_append_left _ hload,
      fun _ => loadBeforeLastEnable_append_enable hload⟩
  | enableFatal => constructor <;> simp
  | disable ps hps =>
    by_cases he : s.pgState = .enabled
    · rw [if_pos he] at hps
      exact controlOk_of_loaded hps rfl (hs.loadedBase_eq (.inr he)) (List.mem_append_left _ (hs.load_mem (.inr he)))
    · rw [if_neg he] at hps
      subst hps
      exact ⟨by simp [he, hf], hs.loadedBase_eq, fun hl => List.mem_append_left _ (hs.load_mem hl), fun h => absurd h he⟩
  | destroy he => exact controlOk_of_unloaded (.inl rfl) (hs.pagingOn_eq_false hf he)

theorem WalkerEffect.sameControl {s t : State} (h : WalkerEffect s t) : SameControl s t := by
  cases h with
  | nothing | dirOnly | both => simp [SameControl]

/-- Settles O40, by the input the step takes: only a command moves the control state, and reset ends before load. -/
theorem stepKeepsControl : Obligations.StepKeepsControl := by
  intro s t hs h
  have hin : ∀ rest, ControlOk { s with inputs := rest } := fun rest => hs.of_sameControl (by simp [SameControl]) rfl
  cases step_effect h with
  | idle => exact hs.of_sameControl (by simp [SameControl]) rfl
  | reset => exact controlOk_of_unloaded (.inl rfl) rfl
  | walk _ rest _ _ _ hw => exact (hin rest).of_sameControl hw.sameControl hw.params_eq
  | command _ rest _ _ _ hf _ hc => exact hc.controlOk hf (hin rest)
  | illegal => exact hs.of_sameControl (by simp [SameControl]) rfl

end Sys2Proof.Machine
end

section
/-! PROOF. What the paging commands answer (spec/43_paging.md R131 to R139) in every state but FATAL: one equation per command
and case of its state, and the cases of the lookup that PG_LOOKUP and PG_MAP share. -/

namespace Sys2Proof.Machine

theorem withState_of_legal {legal : PgState → Bool} {s : State} (h : legal s.pgState = true) (x : Result) :
    withState legal s x = x := if_pos h

theorem withState_of_illegal {legal : PgState → Bool} {s : State} (h : legal s.pgState = false) (x : Result) :
    withState legal s x = fail s .illegalState := if_neg (by simp [h])

/-! ### The shared lookup (R132, R134) -/

section
variable {s : State} {v p : Word} (answer : Word → Word → Result)

theorem withLookup_of_pde_unwritten (hp : entRead s .dir (directoryOffset v) = none) :
    withLookup v s answer = fail s .unwritten := by simp only [withLookup, withEntry, hp]

theorem withLookup_of_pde_not_present (hp : entRead s .dir (directoryOffset v) = some p) (hpres : p.getLsbD 0 = false) :
    withLookup v s answer = fail s .nonPresentPageTable := by
  simp only [withLookup, withEntry, hp]
  exact if_neg (by simpa [flagOf, entryBitPos] using hpres)

theorem withLookup_of_pde_present (hp : entRead s .dir (directoryOffset v) = some p) (hpres : p.getLsbD 0 = true) :
    withLookup v s answer = withEntry (.tbl (directoryOffset v)) (tableOffset v) s (answer p) := by
  simp only [withLookup, withEntry, hp]
  exact if_pos hpres

theorem withLookup_of_pte_unwritten (hp : entRead s .dir (directoryOffset v) = some p) (hpres : p.getLsbD 0 = true)
    (hw : entRead s (.tbl (directoryOffset v)) (tableOffset v) = none) :
    withLookup v s answer = fail s .unwritten := by
  rw [withLookup_of_pde_present answer hp hpres, withEntry, hw]

theorem withLookup_of_entries {w : Word} (hp : entRead s .dir (directoryOffset v) = some p) (hpres : p.getLsbD 0 = true)
    (hw : entRead s (.tbl (directoryOffset v)) (tableOffset v) = some w) : withLookup v s answer = answer p w := by
  rw [withLookup_of_pde_present answer hp hpres, withEntry, hw]

/-- What holds of the two refusals, and of the answer wherever both entries are there, holds of the lookup. -/
theorem withLookup_induction {P : Result → Prop} (hunwritten : P (fail s .unwritten))
    (habsent : P (fail s .nonPresentPageTable))
    (hentries : ∀ p w, entRead s .dir (directoryOffset v) = some p → p.getLsbD 0 = true →
      entRead s (.tbl (directoryOffset v)) (tableOffset v) = some w → P (answer p w)) :
    P (withLookup v s answer) := by
  cases hp : entRead s .dir (directoryOffset v) with
  | none => rwa [withLookup_of_pde_unwritten answer hp]
  | some p =>
    cases hpres : p.getLsbD 0 with
    | false => rwa [withLookup_of_pde_not_present answer hp hpres]
    | true =>
      cases hw : entRead s (.tbl (directoryOffset v)) (tableOffset v) with
      | none => rwa [withLookup_of_pte_unwritten answer hp hpres hw]
      | some w =>
        rw [withLookup_of_entries answer hp hpres hw]
        exact hentries p w hp hpres hw

end

/-! ### What each command answers -/

theorem ne_fatal_of_built_or_loaded {s : State} (h : s.pgState = .built ∨ s.pgState = .loaded) : s.pgState ≠ .fatal := by
  rcases h with h | h <;> simp [h]

section
variable {s : State} (hf : s.pgState ≠ .fatal)
include hf

theorem exec_pgSplit (a : Word) :
    exec (.pgSplit a) s = ok s ((directoryOffset a).setWidth 32) ((tableOffset a).setWidth 32) := unlessFatal_of_ne hf _

theorem exec_pgLookup (a : Word) : exec (.pgLookup a) s =
    withLookup a s fun p w => ok s (lookupAddress a w) (lookupRights p w) := unlessFatal_of_ne hf _

theorem exec_pgMake_of_ne (f g : Flags) (mode : InitMode) (h : s.pgState ≠ .uninitialized) :
    exec (.pgMake f g mode) s = fail s .illegalState :=
  (unlessFatal_of_ne hf _).trans (withState_of_illegal (by simpa using h) _)

theorem exec_pgMap_of_illegal (a b : Word) (f : Flags) (h : builtOrLoaded s.pgState = false) :
    exec (.pgMap a b f) s = fail s .illegalState := (unlessFatal_of_ne hf _).trans (withState_of_illegal h _)

theorem exec_pgLoad_of_illegal (h : builtOrLoaded s.pgState = false) : exec .pgLoad s = fail s .illegalState :=
  (unlessFatal_of_ne hf _).trans (withState_of_illegal h _)

theorem exec_pgDisable : exec .pgDisable s = ok { emit s .disable with
    pagingOn := false
    pgState := if s.pgState = .enabled then .loaded else s.pgState } 0 0 := by
  refine (unlessFatal_of_ne hf _).trans ?_
  congr
  cases s.pgState <;> rfl

theorem exec_pgDestroy_of_ne (h : s.pgState ≠ .enabled) :
    exec .pgDestroy s = ok { entClearAll s with pgState := .uninitialized } 0 0 :=
  (unlessFatal_of_ne hf _).trans (withState_of_legal (by simpa using h) _)

end

theorem exec_pgMake_of_uninitialized {s : State} (f g : Flags) (mode : InitMode) (h : s.pgState = .uninitialized) :
    exec (.pgMake f g mode) s = ok { entMakeAll s ⟨f, g, mode⟩ with pgState := .built } 0 0 :=
  (unlessFatal_of_ne (by simp [h]) _).trans (withState_of_legal (by simpa using h) _)

/-- PG_MAP's two writes where the PDE is p and the PTE is w (R134). -/
def mapWrites (s : State) (a b : Word) (f : Flags) (p w : Word) : State :=
  entWrite (entWrite s (.tbl (directoryOffset a)) (tableOffset a) (remapPte b f w))
    .dir (directoryOffset a) (widenPde f p)

/-- What PG_MAP answers where both entries are there (R134). -/
def mapAnswer (s : State) (a b : Word) (f : Flags) (p w : Word) : Result :=
  if aligned b then ok (mapWrites s a b f p w) 0 0 else fail s .alignmentViolation

theorem exec_pgMap_of_legal {s : State} (a b : Word) (f : Flags) (h : s.pgState = .built ∨ s.pgState = .loaded) :
    exec (.pgMap a b f) s = withLookup a s (mapAnswer s a b f) :=
  (unlessFatal_of_ne (ne_fatal_of_built_or_loaded h) _).trans (withState_of_legal (builtOrLoaded_iff.mpr h) _)

theorem exec_pgLoad_of_legal {s : State} (h : s.pgState = .built ∨ s.pgState = .loaded) :
    exec .pgLoad s =
      ok { emit s (.load (dirAddr s.params)) with loadedBase := some (dirAddr s.params), pgState := .loaded } 0 0 :=
  (unlessFatal_of_ne (ne_fatal_of_built_or_loaded h) _).trans (withState_of_legal (builtOrLoaded_iff.mpr h) _)

theorem exec_pgEnable_after_load {s : State} (h : s.pgState = .loaded ∨ s.pgState = .enabled) :
    exec .pgEnable s = ok { emit s .enable with pagingOn := true, pgState := .enabled } 0 0 := by
  rcases h with h | h <;> simp [exec, execPgEnable, unlessFatal, h]

theorem exec_pgEnable_before_load {s : State} (h : s.pgState = .uninitialized ∨ s.pgState = .built) :
    exec .pgEnable s = .next { emit s .enable with pagingOn := true, pgState := .fatal, response := none } := by
  rcases h with h | h <;> simp [exec, execPgEnable, unlessFatal, h]

theorem exec_pgDestroy_of_enabled {s : State} (h : s.pgState = .enabled) : exec .pgDestroy s = fail s .illegalState :=
  (unlessFatal_of_ne (by simp [h]) _).trans (withState_of_illegal (by simpa using h) _)

/-! ### The claims about the commands that move the control state -/

theorem not_builtOrLoaded {s : State} (h : s.pgState = .uninitialized ∨ s.pgState = .enabled) :
    s.pgState ≠ .fatal ∧ builtOrLoaded s.pgState = false := by
  rcases h with h | h <;> simp [h, builtOrLoaded]

/-- Settles O25, by whether the state is legal for the command. -/
theorem loadHandsTheDirectoryOver : Obligations.LoadHandsTheDirectoryOver := by
  refine fun s => ⟨exec_pgLoad_of_legal, fun h => ?_⟩
  obtain ⟨hf, hillegal⟩ := not_builtOrLoaded h
  exact exec_pgLoad_of_illegal hf hillegal

/-- Settles O26: the state that the early enable ends in is FATAL, and there no command has a next state. -/
theorem enableTurnsPagingOnOrIsFatal : Obligations.EnableTurnsPagingOnOrIsFatal := by
  refine fun s => ⟨exec_pgEnable_after_load, fun h => ⟨exec_pgEnable_before_load h, fun t ht i u hu => ?_⟩⟩
  rw [exec_pgEnable_before_load h] at ht
  cases ht
  exact exec_notFatal hu rfl

/-- Settles O27. -/
theorem disableTurnsPagingOff : Obligations.DisableTurnsPagingOff := fun _ hf => exec_pgDisable hf

/-- Settles O28, by whether the directory is in use. -/
theorem destroyReleasesEverySlot : Obligations.DestroyReleasesEverySlot := by
  refine fun s => ⟨exec_pgDestroy_of_enabled, fun h => ?_⟩
  have hstate : s.pgState ≠ .fatal ∧ s.pgState ≠ .enabled := by rcases h with h | h | h <;> simp [h]
  obtain ⟨hf, he⟩ := hstate
  refine ⟨_, exec_pgDestroy_of_ne hf he, rfl, rfl, rfl, rfl, rfl, ⟨rfl, rfl⟩, fun u i => ?_⟩
  exact (entRead_congr rfl rfl rfl rfl u i).trans (entRead_entClearAll s u i)

/-- The state PG_MAKE ends in reads as PG_MAKE wrote it (R133). -/
theorem entRead_made (s : State) (m : MakeArgs) (u : UnitSel) (i : Index) :
    entRead (respond { entMakeAll s m with pgState := .built } .ok 0 0) u i = some (makeWord s.params m u i) :=
  (entRead_congr rfl rfl rfl rfl u i).trans (entRead_entMakeAll s m u i)

/-- Settles O22: in UNINITIALIZED every slot is written, the word by its unit and the mode. -/
theorem makeWritesEverySlot : Obligations.MakeWritesEverySlot := by
  refine fun s f g mode hf => ⟨exec_pgMake_of_ne hf f g mode, fun h => ?_⟩
  refine ⟨_, exec_pgMake_of_uninitialized f g mode h, rfl, rfl, rfl, rfl, rfl, ⟨rfl, rfl⟩, fun d => ?_, fun d i => ?_⟩
  · exact entRead_made s _ .dir d
  · refine (entRead_made s _ (.tbl d) i).trans ?_
    cases mode <;> rfl

end Sys2Proof.Machine
end

section
/-! PROOF. Lookup and mapping (spec/43_paging.md R131, R132, R134, R135, R141): the words of both results bit by bit, which
slots PG_MAP writes, and what a lookup finds after PG_MAKE and after PG_MAP. -/

namespace Sys2Proof.Machine

/-! ### The fields of an address and of a word -/

theorem toNat_directoryOffset (a : Word) : (directoryOffset a).toNat = a.toNat / (1024 * 4096) := by
  have := a.isLt
  rw [directoryOffset, BitVec.extractLsb'_toNat, Nat.shiftRight_eq_div_pow]
  omega

theorem toNat_tableOffset (a : Word) : (tableOffset a).toNat = a.toNat / 4096 % 1024 := by
  rw [tableOffset, BitVec.extractLsb'_toNat, Nat.shiftRight_eq_div_pow]

/-- The two slot numbers are the page's upper and lower half (R55). -/
theorem offsets_eq_of_page_eq {v v' : Word} (h : v'.extractLsb' 12 20 = v.extractLsb' 12 20) :
    directoryOffset v' = directoryOffset v ∧ tableOffset v' = tableOffset v := by
  have hpage : v'.toNat / 4096 = v.toNat / 4096 := by
    have := congrArg BitVec.toNat h
    simp only [BitVec.extractLsb'_toNat, Nat.shiftRight_eq_div_pow] at this
    omega
  constructor <;> apply BitVec.eq_of_toNat_eq
  · rw [toNat_directoryOffset, toNat_directoryOffset]
    omega
  · rw [toNat_tableOffset, toNat_tableOffset, hpage]

theorem getLsbD_and_rangeMask {hi lo : BitPos} (h : lo.toNat ≤ hi.toNat) (w : Word) (j : Nat) :
    (w &&& rangeMask hi lo).getLsbD j = (w.getLsbD j && decide (lo.toNat ≤ j ∧ j ≤ hi.toNat)) := by
  rw [BitVec.getLsbD_and, getLsbD_rangeMask h]

theorem getLsbD_lookupAddress (a w : Word) (j : Nat) :
    (lookupAddress a w).getLsbD j = if j < 12 then a.getLsbD j else w.getLsbD j := by
  rw [lookupAddress, BitVec.getLsbD_append, BitVec.getLsbD_extractLsb', BitVec.getLsbD_extractLsb']
  split
  next h => simp [h]
  next h =>
    rw [show 12 + (j - 12) = j by omega]
    by_cases hj : j < 32
    · simp [show j - 12 < 20 by omega]
    · simp [BitVec.getLsbD_of_ge w j (by omega)]

theorem getLsbD_lookupRights (p w : Word) (j : Nat) :
    (lookupRights p w).getLsbD j =
      if j < 3 then w.getLsbD j else decide (8 ≤ j ∧ j < 11) && p.getLsbD (j - 8) := by
  simp only [lookupRights, BitVec.getLsbD_append, BitVec.getLsbD_extractLsb', BitVec.getLsbD_zero, Nat.zero_add]
  by_cases h3 : j < 3
  · simp [h3]
  by_cases h8 : j < 8
  · simp [h3, show j - 3 < 5 by omega, show ¬ 8 ≤ j by omega]
  by_cases h11 : j < 11
  · simp [h3, show ¬ j - 3 < 5 by omega, show j - 3 - 5 = j - 8 by omega, show j - 8 < 3 by omega, show 8 ≤ j by omega, h11]
  · simp [h3, show ¬ j - 3 < 5 by omega, show j - 3 - 5 = j - 8 by omega, show ¬ j - 8 < 3 by omega, h11]

theorem getLsbD_lookupRights_pte (p w : Word) {j : Nat} (h : j < 3) : (lookupRights p w).getLsbD j = w.getLsbD j :=
  (getLsbD_lookupRights p w j).trans (if_pos h)

theorem getLsbD_lookupRights_pde (p w : Word) {j : Nat} (h : j < 3) : (lookupRights p w).getLsbD (8 + j) = p.getLsbD j := by
  rw [getLsbD_lookupRights, if_neg (by omega), decide_eq_true (by omega), Bool.true_and, Nat.add_sub_cancel_left]

/-! ### The result words as their rules write them -/

theorem lookupAddress_eq_masks (a w : Word) : lookupAddress a w = (w &&& 0xFFFFF000#32) ||| (a &&& 0x00000FFF#32) := by
  apply BitVec.eq_of_getLsbD_eq
  intro j hj
  rw [show 0xFFFFF000#32 = rangeMask 31#5 12#5 from rfl, show 0x00000FFF#32 = rangeMask 11#5 0#5 from rfl,
    BitVec.getLsbD_or, getLsbD_and_rangeMask (by decide), getLsbD_and_rangeMask (by decide), getLsbD_lookupAddress]
  by_cases h : j < 12
  · simp [h, show j ≤ 11 by omega, show ¬ 12 ≤ j by omega]
  · simp [h, show ¬ j ≤ 11 by omega, show 12 ≤ j by omega, show j ≤ 31 by omega]

theorem lookupRights_eq_masks (p w : Word) : lookupRights p w = ((p &&& 7#32) <<< 8) ||| (w &&& 7#32) := by
  apply BitVec.eq_of_getLsbD_eq
  intro j hj
  rw [show 7#32 = rangeMask 2#5 0#5 from rfl, BitVec.getLsbD_or, BitVec.getLsbD_shiftLeft,
    getLsbD_and_rangeMask (by decide), getLsbD_and_rangeMask (by decide), getLsbD_lookupRights]
  by_cases h3 : j < 3
  · simp [h3, show j ≤ 2 by omega, show j < 8 by omega]
  by_cases h8 : j < 8
  · simp [h3, h8, show ¬ j ≤ 2 by omega, show ¬ 8 ≤ j by omega]
  · simp [h3, h8, hj, show ¬ j ≤ 2 by omega, show 8 ≤ j by omega, Nat.lt_succ_iff, Bool.and_comm]

/-- The flags word masked to bits 2:1, as R134 writes both of its words. -/
theorem getLsbD_flags_and_six (f : Flags) (j : Nat) :
    (f.setWidth 32 &&& 6#32).getLsbD j = (f.getLsbD j && decide (1 ≤ j ∧ j ≤ 2)) := by
  rw [show 6#32 = rangeMask 2#5 1#5 from rfl, getLsbD_and_rangeMask (by decide), BitVec.getLsbD_setWidth]
  by_cases h : j ≤ 2
  · simp [h, show j < 32 by omega]
  · simp [h]

theorem widenPde_eq_masks (f : Flags) (p : Word) : widenPde f p = p ||| (f.setWidth 32 &&& 6#32) := by
  apply BitVec.eq_of_getLsbD_eq
  intro j _
  rw [getLsbD_widenPde, BitVec.getLsbD_or, getLsbD_flags_and_six, Bool.and_comm,
    show decide (j = 1 ∨ j = 2) = decide (1 ≤ j ∧ j ≤ 2) by rw [decide_eq_decide]; omega]

theorem remapPte_eq_masks {b : Word} (hb : aligned b = true) (f : Flags) (w : Word) :
    remapPte b f w = b ||| (w &&& 0xFF8#32) ||| (f.setWidth 32 &&& 6#32) ||| 1#32 := by
  apply BitVec.eq_of_getLsbD_eq
  intro j _
  have hlow : j < 12 → b.getLsbD j = false := (aligned_iff b).mp hb j
  rw [show 0xFF8#32 = rangeMask 11#5 3#5 from rfl, BitVec.getLsbD_or, BitVec.getLsbD_or, BitVec.getLsbD_or,
    getLsbD_and_rangeMask (by decide), getLsbD_flags_and_six, getLsbD_remapPte, BitVec.getLsbD_one]
  by_cases h0 : j = 0
  · simp [h0]
  by_cases h3 : j < 3
  · simp [h0, h3, hlow (by omega), show ¬ 3 ≤ j by omega, show 1 ≤ j by omega, show j ≤ 2 by omega]
  by_cases h12 : j < 12
  · simp [h0, h3, h12, hlow h12, show 3 ≤ j by omega, show j ≤ 11 by omega, show ¬ j ≤ 2 by omega]
  · simp [h0, h3, h12, show ¬ j ≤ 11 by omega, show ¬ j ≤ 2 by omega]

/-! ### Splitting and looking up (R131, R132) -/

/-- Settles O19: the two results are the quotients by the sizes of what a directory and a table slot map. -/
theorem splitDecomposesTheAddress : Obligations.SplitDecomposesTheAddress := by
  intro s a hf
  have hr : ((directoryOffset a).setWidth 32).toNat = a.toNat / (1024 * 4096) := by
    rw [BitVec.toNat_setWidth_of_le (by decide), toNat_directoryOffset]
  have hr2 : ((tableOffset a).setWidth 32).toNat = a.toNat / 4096 % 1024 := by
    rw [BitVec.toNat_setWidth_of_le (by decide), toNat_tableOffset]
  refine ⟨_, _, exec_pgSplit hf a, rfl, rfl, hr, hr2, ?_, ?_⟩ <;> rw [hr, hr2] <;> omega

theorem exec_pgLookup_of_entries {s : State} {a p w : Word} (hf : s.pgState ≠ .fatal)
    (hp : entRead s .dir (directoryOffset a) = some p) (hpres : p.getLsbD 0 = true)
    (hw : entRead s (.tbl (directoryOffset a)) (tableOffset a) = some w) :
    exec (.pgLookup a) s = ok s (lookupAddress a w) (lookupRights p w) :=
  (exec_pgLookup hf a).trans (withLookup_of_entries _ hp hpres hw)

/-- Settles O20, by the four exclusive cases of the lookup. -/
theorem lookupReadsBothLevels : Obligations.LookupReadsBothLevels := by
  intro s a hf
  refine ⟨fun hp => ?pdeUnwritten, fun p hp hpres => ?pdeAbsent, fun p hp hpres hw => ?pteUnwritten,
    fun p w hp hpres hw => ?entries⟩
  case pdeUnwritten => exact (exec_pgLookup hf a).trans (withLookup_of_pde_unwritten _ hp)
  case pdeAbsent => exact (exec_pgLookup hf a).trans (withLookup_of_pde_not_present _ hp hpres)
  case pteUnwritten => exact (exec_pgLookup hf a).trans (withLookup_of_pte_unwritten _ hp hpres hw)
  case entries =>
    rw [← lookupAddress_eq_masks, ← lookupRights_eq_masks]
    exact exec_pgLookup_of_entries hf hp hpres hw

/-! ### The identity map (R141 item 1) -/

theorem lookupAddress_eq_self {a w : Word} (h : w.extractLsb' 12 20 = a.extractLsb' 12 20) : lookupAddress a w = a := by
  rw [lookupAddress, h, BitVec.extractLsb'_append_extractLsb'_eq_extractLsb' (show 12 = 0 + 12 from rfl),
    BitVec.extractLsb'_eq_self]

/-- The address that PG_MAKE gives the PTE v selects, in LINEAR mode (R133). -/
def linearAddress (v : Word) : Word :=
  BitVec.ofNat 32 (((directoryOffset v).toNat * 1024 + (tableOffset v).toNat) * 4096)

theorem makeWord_linear (p : Params) (f g : Flags) (v : Word) :
    makeWord p ⟨f, g, .linear⟩ (.tbl (directoryOffset v)) (tableOffset v) = makeEntry (linearAddress v) g := rfl

theorem aligned_linearAddress (v : Word) : aligned (linearAddress v) = true := by
  simpa [linearAddress] using aligned_ofNat_mul ((directoryOffset v).toNat * 1024 + (tableOffset v).toNat) 0 aligned_zero

/-- R58: the PTE that v selects has v's page. -/
theorem linearAddress_page (v : Word) : (linearAddress v).extractLsb' 12 20 = v.extractLsb' 12 20 := by
  apply BitVec.eq_of_toNat_eq
  rw [linearAddress, BitVec.extractLsb'_toNat, BitVec.extractLsb'_toNat, Nat.shiftRight_eq_div_pow,
    Nat.shiftRight_eq_div_pow, BitVec.toNat_ofNat, toNat_directoryOffset, toNat_tableOffset]
  omega

theorem lookupRights_makeEntry {a b : Word} (ha : aligned a = true) (hb : aligned b = true) (f g : Flags) :
    lookupRights (makeEntry a f) (makeEntry b g) = (f.setWidth 32 <<< 8) ||| g.setWidth 32 := by
  apply BitVec.eq_of_getLsbD_eq
  intro j hj
  rw [getLsbD_lookupRights, BitVec.getLsbD_or, BitVec.getLsbD_shiftLeft, BitVec.getLsbD_setWidth, BitVec.getLsbD_setWidth]
  by_cases h3 : j < 3
  · rw [if_pos h3, getLsbD_makeEntry_low b hb g j h3]
    simp [hj, show j < 8 by omega]
  rw [if_neg h3, BitVec.getLsbD_of_ge g j (by omega)]
  by_cases h : 8 ≤ j ∧ j < 11
  · rw [getLsbD_makeEntry_low a ha f (j - 8) (by omega)]
    simp [h, hj, show ¬ j < 8 by omega, show j - 8 < 32 by omega]
  · rw [decide_eq_false h]
    by_cases h8 : j < 8
    · simp [h8]
    · simp [BitVec.getLsbD_of_ge f (j - 8) (by omega)]

/-- Settles O30: after PG_MAKE the lookup finds the two made entries, and the PTE's page is the address's own. -/
theorem linearMakeIsTheIdentityMap : Obligations.LinearMakeIsTheIdentityMap := by
  intro s f g hs hf0
  refine ⟨_, exec_pgMake_of_uninitialized f g .linear hs, fun v => ?_⟩
  have hdaddr := aligned_tableAddr s.params (directoryOffset v)
  have hdir := entRead_made s ⟨f, g, .linear⟩ .dir (directoryOffset v)
  have hpres := (getLsbD_makeEntry_low _ hdaddr f 0 (by decide)).trans hf0
  have htbl := entRead_made s ⟨f, g, .linear⟩ (.tbl (directoryOffset v)) (tableOffset v)
  rw [makeWord_linear] at htbl
  refine (exec_pgLookup_of_entries (by simp) hdir hpres htbl).trans ?_
  have haddress := lookupAddress_eq_self ((extractLsb'_makeEntry_address _ g).trans (linearAddress_page v))
  have hrights := lookupRights_makeEntry hdaddr (aligned_linearAddress v) f g
  exact congrArg₂ (ok _) haddress hrights

/-! ### Mapping (R134, R135) -/

theorem mapWrites_sameControl (s : State) (a b : Word) (f : Flags) (p w : Word) : SameControl s (mapWrites s a b f p w) := by
  simp [SameControl, mapWrites]

theorem mapWrites_sameOutside (s : State) (a b : Word) (f : Flags) (p w : Word) : SameOutside s (mapWrites s a b f p w) := by
  simp [SameOutside, mapWrites]

/-- The two written slots stand in different units. -/
theorem entRead_mapWrites (s : State) (a b : Word) (f : Flags) (p w : Word) (u : UnitSel) (i : Index) :
    entRead (mapWrites s a b f p w) u i =
      if u = .tbl (directoryOffset a) ∧ i = tableOffset a then some (remapPte b f w)
      else if u = .dir ∧ i = directoryOffset a then some (widenPde f p)
      else entRead s u i := by
  rw [mapWrites, entRead_entWrite, entRead_entWrite]
  cases u with
  | dir => simp
  | tbl => simp

theorem entRead_mapWrites_pde (s : State) (a b : Word) (f : Flags) (p w : Word) :
    entRead (mapWrites s a b f p w) .dir (directoryOffset a) = some (widenPde f p) := by simp [entRead_mapWrites]

theorem entRead_mapWrites_pte (s : State) (a b : Word) (f : Flags) (p w : Word) :
    entRead (mapWrites s a b f p w) (.tbl (directoryOffset a)) (tableOffset a) = some (remapPte b f w) := by
  simp [entRead_mapWrites]

/-- Settles O23, by R134's order: the state, the lookup's cases, then the alignment. -/
theorem mapRewritesPteAndWidensPde : Obligations.MapRewritesPteAndWidensPde := by
  intro s a b f hf
  refine ⟨fun h => exec_pgMap_of_illegal hf a b f (not_builtOrLoaded h).2, fun h => ?_⟩
  rw [exec_pgMap_of_legal a b f h]
  refine ⟨fun hp => ?pdeUnwritten, fun p hp hpres => ?pdeAbsent, fun p hp hpres =>
    ⟨fun hw => ?pteUnwritten, fun w hw => ⟨fun hb => ?notAligned, fun hb => ?mapped⟩⟩⟩
  case pdeUnwritten => exact withLookup_of_pde_unwritten _ hp
  case pdeAbsent => exact withLookup_of_pde_not_present _ hp hpres
  case pteUnwritten => exact withLookup_of_pte_unwritten _ hp hpres hw
  case notAligned => exact (withLookup_of_entries _ hp hpres hw).trans (if_neg (mt beq_iff_eq.mp hb))
  case mapped =>
    have haligned : aligned b = true := beq_iff_eq.mpr hb
    refine ⟨_, (withLookup_of_entries _ hp hpres hw).trans (if_pos haligned), rfl, mapWrites_sameControl s a b f p w,
      mapWrites_sameOutside s a b f p w, fun u i => ?_⟩
    rw [entRead_respond, entRead_mapWrites, remapPte_eq_masks haligned, widenPde_eq_masks]
    rfl

theorem response_ne_ok_of_fail {s t : State} {st : Status} (hst : st ≠ .ok) (h : fail s st = .next t) :
    t.response ≠ some ⟨.ok, 0, 0⟩ := by
  rw [fail_next] at h
  subst h
  simpa using hst

/-- A PG_MAP that was answered OK has found both entries and made its two writes. -/
theorem exec_pgMap_ok {s t : State} {a b : Word} {f : Flags} (h : exec (.pgMap a b f) s = .next t)
    (hr : t.response = some ⟨.ok, 0, 0⟩) :
    ∃ p w, entRead s .dir (directoryOffset a) = some p ∧ p.getLsbD 0 = true ∧
      t = respond (mapWrites s a b f p w) .ok 0 0 := by
  cases hl : builtOrLoaded s.pgState with
  | false =>
    rw [exec_pgMap_of_illegal (exec_notFatal h) a b f hl] at h
    exact absurd hr (response_ne_ok_of_fail (by decide) h)
  | true =>
    rw [exec_pgMap_of_legal a b f (builtOrLoaded_iff.mp hl)] at h
    revert h
    refine withLookup_induction (P := fun x => x = .next t → _) _ (fun h => absurd hr (response_ne_ok_of_fail (by decide) h))
      (fun h => absurd hr (response_ne_ok_of_fail (by decide) h)) fun p w hp hpres _ h => ?_
    unfold mapAnswer at h
    split at h
    · exact ⟨p, w, hp, hpres, (ok_next.mp h).symm⟩
    · exact absurd hr (response_ne_ok_of_fail (by decide) h)

/-- Settles O24: the PDE that is read afterwards is the widened one. -/
theorem mapOnlyWidensThePde : Obligations.MapOnlyWidensThePde := by
  intro s t a b f h hr
  obtain ⟨p, w, hp, -, rfl⟩ := exec_pgMap_ok h hr
  refine ⟨p, widenPde f p, hp, (entRead_respond ..).trans (entRead_mapWrites_pde ..), getLsbD_widenPde f p 1,
    getLsbD_widenPde f p 2, fun j h1 h2 => ?_⟩
  rw [getLsbD_widenPde, decide_eq_false (by omega), Bool.false_and, Bool.or_false]

/-! ### A lookup after a map (R141 item 2) -/

theorem extractLsb'_remapPte_page (b : Word) (f : Flags) (w : Word) :
    (remapPte b f w).extractLsb' 12 20 = b.extractLsb' 12 20 := by
  apply BitVec.eq_of_getLsbD_eq
  intro j _
  rw [BitVec.getLsbD_extractLsb', BitVec.getLsbD_extractLsb', getLsbD_remapPte, if_neg (by omega), if_neg (by omega),
    if_neg (by omega)]

/-- Settles O31: an address on the mapped page selects the two written slots. -/
theorem lookupAfterMap : Obligations.LookupAfterMap := by
  intro s t v b f h hr v' hpage
  have hf := exec_notFatal h
  obtain ⟨p, w, -, hpres, rfl⟩ := exec_pgMap_ok h hr
  obtain ⟨hd, hi⟩ := offsets_eq_of_page_eq hpage
  have hdir : entRead (respond (mapWrites s v b f p w) .ok 0 0) .dir (directoryOffset v') = some (widenPde f p) := by
    rw [entRead_respond, hd, entRead_mapWrites_pde]
  have htbl : entRead (respond (mapWrites s v b f p w) .ok 0 0) (.tbl (directoryOffset v')) (tableOffset v') =
      some (remapPte b f w) := by
    rw [entRead_respond, hd, hi, entRead_mapWrites_pte]
  have hwidened : (widenPde f p).getLsbD 0 = true := by rw [getLsbD_widenPde, hpres, Bool.true_or]
  have hlookup := exec_pgLookup_of_entries (by simpa [mapWrites] using hf) hdir hwidened htbl
  rw [lookupAddress, extractLsb'_remapPte_page] at hlookup
  have hpte : ∀ j < 3, (lookupRights (widenPde f p) (remapPte b f w)).getLsbD j = (remapPte b f w).getLsbD j :=
    fun _ => getLsbD_lookupRights_pte _ _
  have hpde : ∀ j < 3, (lookupRights (widenPde f p) (remapPte b f w)).getLsbD (8 + j) = (widenPde f p).getLsbD j :=
    fun _ => getLsbD_lookupRights_pde _ _
  refine ⟨_, hlookup, (hpte 0 (by decide)).trans (getLsbD_remapPte b f w 0),
    (hpte 1 (by decide)).trans (getLsbD_remapPte b f w 1), (hpte 2 (by decide)).trans (getLsbD_remapPte b f w 2),
    fun h1 => (hpde 1 (by decide)).trans ?_, fun h2 => (hpde 2 (by decide)).trans ?_⟩
  · rw [getLsbD_widenPde, h1, Bool.and_true, decide_eq_true (by omega), Bool.or_true]
  · rw [getLsbD_widenPde, h2, Bool.and_true, decide_eq_true (by omega), Bool.or_true]

end Sys2Proof.Machine
end

section
/-! PROOF. The state machine of spec/43_paging.md R140: each command's row of the table, from the command's own equations. A
command that is no paging command has the row of R109. -/

namespace Sys2Proof.Machine

/-- The answer x of command i in state s is the one R140's table gives. -/
def FollowsTable (i : Instr) (s : State) (x : Result) : Prop :=
  ∃ t, x = .next t ∧ t.pgState = stateAfter i s.pgState ∧
    (t.response = some ⟨.illegalState, 0, 0⟩ ↔ illegalIn i s.pgState)

theorem followsTable_ok {i : Instr} {s s' : State} {r r2 : Word} (hstate : s'.pgState = stateAfter i s.pgState)
    (hlegal : ¬ illegalIn i s.pgState) : FollowsTable i s (ok s' r r2) :=
  ⟨_, rfl, hstate, iff_of_false (by simp) hlegal⟩

theorem followsTable_fail {i : Instr} {s : State} {st : Status} (hstate : s.pgState = stateAfter i s.pgState)
    (hst : st ≠ .illegalState) (hlegal : ¬ illegalIn i s.pgState) : FollowsTable i s (fail s st) :=
  ⟨_, rfl, hstate, iff_of_false (by simpa using hst) hlegal⟩

theorem followsTable_illegalState {i : Instr} {s : State} (hstate : s.pgState = stateAfter i s.pgState)
    (hillegal : illegalIn i s.pgState) : FollowsTable i s (fail s .illegalState) :=
  ⟨_, rfl, hstate, iff_of_true rfl hillegal⟩

/-- R109: the table leaves `pg_state`, and ILLEGAL_STATE is a paging command's answer. -/
theorem stateAfter_of_not_paging {i : Instr} (hi : isPaging i = false) (ps : PgState) :
    stateAfter i ps = ps ∧ ¬ illegalIn i ps := by
  cases i with
  | pgSplit | pgLookup | pgMake | pgMap | pgLoad | pgEnable | pgDisable | pgDestroy => cases hi
  | _ => exact ⟨rfl, id⟩

theorem followsTable_of_not_paging {i : Instr} {s : State} (hf : s.pgState ≠ .fatal) (hi : isPaging i = false) :
    FollowsTable i s (exec i s) := by
  obtain ⟨hstay, hlegal⟩ := stateAfter_of_not_paging hi s.pgState
  obtain ⟨t, ht, ⟨-, rfl, -⟩ | ⟨resp, hresp, -, -, -, hst⟩⟩ := exec_answers i hf
  · cases hi
  · obtain ⟨hstate, -⟩ := ((exec_effect ht).sameControl_sameOutside hi).1
    refine ⟨t, ht, hstate.trans hstay.symm, iff_of_false (fun h => ?_) hlegal⟩
    cases hresp.symm.trans h
    exact hst hi rfl

/-- A lookup refuses with no other status than its two, so the table asks only about its answer. -/
theorem followsTable_withLookup {i : Instr} {s : State} {v : Word} {answer : Word → Word → Result}
    (hstate : s.pgState = stateAfter i s.pgState) (hlegal : ¬ illegalIn i s.pgState)
    (h : ∀ p w, FollowsTable i s (answer p w)) : FollowsTable i s (withLookup v s answer) :=
  withLookup_induction answer (followsTable_fail hstate (by decide) hlegal)
    (followsTable_fail hstate (by decide) hlegal) fun p w _ _ _ => h p w

theorem builtOrLoaded_or_illegal {s : State} (hf : s.pgState ≠ .fatal) :
    (s.pgState = .built ∨ s.pgState = .loaded) ∨ s.pgState = .uninitialized ∨ s.pgState = .enabled := by
  cases h : s.pgState <;> simp_all

section
variable {s : State} (hf : s.pgState ≠ .fatal)
include hf

theorem followsTable_pgLookup (a : Word) : FollowsTable (.pgLookup a) s (exec (.pgLookup a) s) := by
  rw [exec_pgLookup hf]
  exact followsTable_withLookup rfl id fun _ _ => followsTable_ok rfl id

theorem followsTable_pgMake (f g : Flags) (mode : InitMode) :
    FollowsTable (.pgMake f g mode) s (exec (.pgMake f g mode) s) := by
  by_cases h : s.pgState = .uninitialized
  · rw [exec_pgMake_of_uninitialized f g mode h]
    exact followsTable_ok (if_pos h).symm (not_not_intro h)
  · rw [exec_pgMake_of_ne hf f g mode h]
    exact followsTable_illegalState (if_neg h).symm h

theorem followsTable_pgMap (a b : Word) (f : Flags) : FollowsTable (.pgMap a b f) s (exec (.pgMap a b f) s) := by
  obtain h | h := builtOrLoaded_or_illegal hf
  · have hlegal : ¬ illegalIn (.pgMap a b f) s.pgState := by rcases h with h | h <;> simp [illegalIn, h]
    rw [exec_pgMap_of_legal a b f h]
    refine followsTable_withLookup rfl hlegal fun p w => ?_
    unfold mapAnswer
    split
    · exact followsTable_ok (mapWrites_sameControl s a b f p w).1 hlegal
    · exact followsTable_fail rfl (by decide) hlegal
  · rw [exec_pgMap_of_illegal hf a b f (not_builtOrLoaded h).2]
    exact followsTable_illegalState rfl h

theorem followsTable_pgLoad : FollowsTable .pgLoad s (exec .pgLoad s) := by
  obtain h | h := builtOrLoaded_or_illegal hf
  · rw [exec_pgLoad_of_legal h]
    refine followsTable_ok ?_ ?_ <;> rcases h with h | h <;> simp [stateAfter, illegalIn, h]
  · rw [exec_pgLoad_of_illegal hf (not_builtOrLoaded h).2]
    refine followsTable_illegalState ?_ h
    rcases h with h | h <;> simp [stateAfter, h]

theorem followsTable_pgEnable : FollowsTable .pgEnable s (exec .pgEnable s) := by
  by_cases h : s.pgState = .uninitialized ∨ s.pgState = .built
  · rw [exec_pgEnable_before_load h]
    exact ⟨_, rfl, (if_pos h).symm, iff_of_false nofun id⟩
  · have hload : s.pgState = .loaded ∨ s.pgState = .enabled := by
      cases hs : s.pgState <;> simp_all
    rw [exec_pgEnable_after_load hload]
    exact followsTable_ok (if_neg h).symm id

theorem followsTable_pgDestroy : FollowsTable .pgDestroy s (exec .pgDestroy s) := by
  by_cases h : s.pgState = .enabled
  · rw [exec_pgDestroy_of_enabled h]
    exact followsTable_illegalState (if_pos h).symm h
  · rw [exec_pgDestroy_of_ne hf h]
    exact followsTable_ok (if_neg h).symm h

end

/-- Settles O29, row by row. -/
theorem stateMachineTable : Obligations.StateMachineTable := by
  intro i s hf
  show FollowsTable i s (exec i s)
  cases i with
  | pgSplit a =>
    rw [exec_pgSplit hf]
    exact followsTable_ok rfl id
  | pgLookup a => exact followsTable_pgLookup hf a
  | pgMake f g mode => exact followsTable_pgMake hf f g mode
  | pgMap a b f => exact followsTable_pgMap hf a b f
  | pgLoad => exact followsTable_pgLoad hf
  | pgEnable => exact followsTable_pgEnable hf
  | pgDisable =>
    rw [exec_pgDisable hf]
    exact followsTable_ok rfl id
  | pgDestroy => exact followsTable_pgDestroy hf
  | _ => exact followsTable_of_not_paging hf rfl

end Sys2Proof.Machine
end

section
/-! PROOF. Failing commands and the fatal state (spec/60_exceptions.md R152, R160, R167): what a refusal leaves, which statuses
are answered, and that in FATAL every turn but a reset stops. -/

namespace Sys2Proof.Machine

/-! ### Failures (R152, R167) -/

/-- Every write and every move of the control state ends with OK, or with no response at all. -/
theorem CommandEffect.eq_fail_of_status_ne_ok {s t : State} {i : Instr} {resp : Response} (h : CommandEffect s i t)
    (hresp : t.response = some resp) (hst : resp.status ≠ .ok) : t = respond s resp.status 0 0 := by
  cases h with
  | answered i st r r2 h0 =>
    cases hresp
    obtain ⟨rfl, rfl⟩ := h0 hst
    rfl
  | enableFatal => cases hresp
  | flagSet | flagClear | put | init | make | map | load | enable | disable | destroy =>
    cases hresp
    exact absurd rfl hst

/-- Settles O32, by what the command has done; an unassigned opcode is a refusal itself. -/
theorem failureChangesNothing : Obligations.FailureChangesNothing := by
  intro p s t resp h hresp hst
  obtain ⟨i, hc⟩ | rfl := commandTurn_effect h
  · exact hc.eq_fail_of_status_ne_ok hresp hst
  · cases hresp
    rfl

/-- Settles O34, by the decoder's answer: an instruction never answers with one of the three statuses, and an unassigned opcode
answers ILLEGAL_OP. -/
theorem heapStatusesAreNeverProduced : Obligations.HeapStatusesAreNeverProduced := by
  intro p s t resp h hresp
  cases hd : decode p with
  | ok i =>
    rw [commandTurn_of_ok hd] at h
    obtain ⟨t', ht', hanswer⟩ := exec_answers i (exec_notFatal h)
    cases h.symm.trans ht'
    obtain ⟨hnone, -⟩ | ⟨resp', hresp', halloc, hcorrupted, hmemory, -⟩ := hanswer
    · cases hnone.symm.trans hresp
    · cases hresp'.symm.trans hresp
      exact ⟨halloc, hcorrupted, hmemory⟩
  | error e =>
    rw [commandTurn_of_error hd] at h
    obtain ⟨-, h⟩ := unlessFatal_next h
    cases fail_next.mp h
    cases hresp
    decide

/-! ### The fatal state (R160) -/

section
variable {s : State} (hf : s.pgState = .fatal)
include hf

/-- Each command's meaning is guarded by `unlessFatal`. -/
theorem exec_of_fatal (i : Instr) : exec i s = .fault .fatal := by
  cases i <;> exact unlessFatal_of_eq hf _

theorem commandTurn_of_fatal (p : Ports) : commandTurn p s = .fault .fatal := by
  cases hd : decode p with
  | ok i => exact (commandTurn_of_ok hd s).trans (exec_of_fatal hf i)
  | error e => exact (commandTurn_of_error hd s).trans (unlessFatal_of_eq hf _)

theorem walkerTurn_of_fatal (draw : WalkerDraw) : walkerTurn draw s = .fault .fatal := unlessFatal_of_eq hf _

end

/-- Settles O35. -/
theorem fatalAnswersNothing : Obligations.FatalAnswersNothing := fun _ hf =>
  ⟨exec_of_fatal hf, commandTurn_of_fatal hf, walkerTurn_of_fatal hf⟩

/-- Settles O36, by the input the step takes: of the steps that have a next state, reset alone may start in FATAL. -/
theorem onlyResetLeavesFatal : Obligations.OnlyResetLeavesFatal := by
  intro s t hf h
  cases step_effect h with
  | reset rest hi => exact ⟨rest, hi, rfl⟩
  | idle _ hne | walk _ _ _ _ hne | command _ _ _ _ _ hne | illegal _ _ _ _ hne => exact absurd hf hne

end Sys2Proof.Machine
end

section
/-! PROOF. Reset, completion and the one fatal command (spec/70_reset_and_hazards.md R170, R174, R177): what holds after a
reset, that every command outside FATAL is answered, and which command enters FATAL. -/

namespace Sys2Proof.Machine

/-! ### Completion (R177) -/

/-- Settles O33, by the decoder's answer: an instruction answers as `exec_answers` says, and an unassigned opcode answers
ILLEGAL_OP. -/
theorem everyCommandCompletes : Obligations.EveryCommandCompletes := by
  intro p s hf
  cases hd : decode p with
  | ok i =>
    rw [commandTurn_of_ok hd]
    obtain ⟨t, ht, ⟨hnone, rfl, hfatal⟩ | ⟨resp, hresp, -⟩⟩ := exec_answers i hf
    · exact ⟨t, ht, .inr ⟨rfl, hfatal, hnone⟩⟩
    · exact ⟨t, ht, .inl (by simp [hresp])⟩
  | error e =>
    rw [commandTurn_of_error hd, illegalOpcode_of_ne hf]
    exact ⟨_, rfl, .inl nofun⟩

/-! ### The way into FATAL (R137, R160, R174) -/

/-- Of the effects, only the enable before load ends in FATAL: the others keep the state before or name another. -/
theorem CommandEffect.enableBeforeLoad_of_fatal {s t : State} {i : Instr} (h : CommandEffect s i t)
    (hf : s.pgState ≠ .fatal) (ht : t.pgState = .fatal) :
    i = .pgEnable ∧ (s.pgState = .uninitialized ∨ s.pgState = .built) := by
  cases h with
  | enableFatal hs => exact ⟨rfl, hs⟩
  | answered | flagSet | flagClear | put | init | map => exact absurd (by simpa using ht) hf
  | make | load | enable | destroy => cases ht
  | disable ps hps =>
    obtain rfl : ps = .fatal := ht
    split at hps
    · cases hps
    · exact absurd hps.symm hf

/-- Settles O37, by the input the step takes: a step that runs no decoded command keeps a `pg_state` other than FATAL, or resets
it. -/
theorem fatalIsEnableBeforeLoad : Obligations.FatalIsEnableBeforeLoad := by
  intro s t h ht
  cases step_effect h with
  | command p rest i _ hi hf hd hc =>
    obtain ⟨rfl, hs⟩ := hc.enableBeforeLoad_of_fatal hf ht
    exact ⟨p, rest, hi, hd, hs⟩
  | idle _ hf | illegal _ _ _ _ hf => exact absurd ht hf
  | walk _ _ _ _ hf hw => exact absurd (hw.pgState_eq.symm.trans ht) hf
  | reset => cases ht

/-! ### Reset (R170) -/

/-- Settles O42: no slot is written, paging is off before load, and the storage is as PG_DESTROY leaves it. -/
theorem resetMeetsTheInvariants : Obligations.ResetMeetsTheInvariants :=
  ⟨by simp [StorageOk], by simp [BuiltMeansWritten], controlOk_of_unloaded (.inl rfl) rfl, entClearAll_wf State.reset⟩

/-- Settles O57, field by field; a read finds no slot written. -/
theorem resetState : Obligations.ResetState :=
  ⟨reset_pgState, reset_loadedBase, reset_pagingOn, reset_hwEvents, entRead_reset .dir, fun t => entRead_reset (.tbl t),
    reset_response⟩

/-- Settles O58: the step is `resetTurn`, whose state is the reset state but for the parameters and the inputs. -/
theorem resetInputRestoresTheResetState : Obligations.ResetInputRestoresTheResetState := fun s rest hi =>
  ⟨_, step_of_reset hi, reset_pgState, reset_loadedBase, reset_pagingOn, reset_hwEvents, entRead_resetTurn s.params rest,
    reset_response, rfl, rfl⟩

end Sys2Proof.Machine
end
